-- ==== Sys2Proof/Word.lean ====
section
/-! DEFINITION. The 32-bit word, register numbers, and the two readings of a word (00_scope.md R7). -/

namespace Sys2Proof

/-- `Word32` of 00_scope.md R7: what a register, a memory cell, the pc or an encoded instruction holds. -/
abbrev Word := BitVec 32

/-- A general register number, 0..31 (10_state.md R20; 30_encoding.md R71). -/
abbrev Reg := Fin 32

/-- `wrap(n)` of R7: an integer reduced modulo 2^32. -/
abbrev wrap (n : Int) : Word := BitVec.ofInt 32 n

/-- `sint(v)` of R7: the two's-complement reading, in [-2^31, 2^31 - 1]. -/
abbrev sint (v : Word) : Int := v.toInt

/-- `uint(v)` of R7: the unsigned reading, in [0, 2^32 - 1]. -/
abbrev uint (v : Word) : Nat := v.toNat

end Sys2Proof
end

