-- ==== Sys2Proof/Syntax.lean ====
section
/-! DEFINITION. The instruction term of 30_encoding.md R71, written out with one constructor for each row of the opcode
map (R89), and the row names. -/

namespace Sys2Proof

/-- The rows of the opcode map, 30_encoding.md R89, in its order. -/
inductive Mnemonic where
  | add | sub | and | or | xor | sll | srl | sra | slt | seq | sne | sge | mul | div | rem
  | addi | subi | andi | ori | xori | slli | srli | srai | slti | seqi | snei | sgei | muli | divi | remi
  | lui | lw | sw | beq | bne | blt | bge | jal | jalr
  | ebreak | eread | ewrite
  deriving DecidableEq, Repr

/-- Every row of R89 once, in its order. -/
def Mnemonic.all : List Mnemonic :=
  [.add, .sub, .and, .or, .xor, .sll, .srl, .sra, .slt, .seq, .sne, .sge, .mul, .div, .rem,
   .addi, .subi, .andi, .ori, .xori, .slli, .srli, .srai, .slti, .seqi, .snei, .sgei, .muli, .divi, .remi,
   .lui, .lw, .sw, .beq, .bne, .blt, .bge, .jal, .jalr, .ebreak, .eread, .ewrite]

/-- A decoded instruction (00_scope.md R14; 30_encoding.md R71). Immediates and offsets are the sign-extended integers,
`shamt` the shift amount and `u20` the unsigned upper immediate of `lui`. -/
inductive Instr where
  | add (rd rs1 rs2 : Reg)
  | sub (rd rs1 rs2 : Reg)
  | and (rd rs1 rs2 : Reg)
  | or (rd rs1 rs2 : Reg)
  | xor (rd rs1 rs2 : Reg)
  | sll (rd rs1 rs2 : Reg)
  | srl (rd rs1 rs2 : Reg)
  | sra (rd rs1 rs2 : Reg)
  | slt (rd rs1 rs2 : Reg)
  | seq (rd rs1 rs2 : Reg)
  | sne (rd rs1 rs2 : Reg)
  | sge (rd rs1 rs2 : Reg)
  | mul (rd rs1 rs2 : Reg)
  | div (rd rs1 rs2 : Reg)
  | rem (rd rs1 rs2 : Reg)
  | addi (rd rs1 : Reg) (imm : Int)
  | subi (rd rs1 : Reg) (imm : Int)
  | andi (rd rs1 : Reg) (imm : Int)
  | ori (rd rs1 : Reg) (imm : Int)
  | xori (rd rs1 : Reg) (imm : Int)
  | slli (rd rs1 : Reg) (shamt : Fin 32)
  | srli (rd rs1 : Reg) (shamt : Fin 32)
  | srai (rd rs1 : Reg) (shamt : Fin 32)
  | slti (rd rs1 : Reg) (imm : Int)
  | seqi (rd rs1 : Reg) (imm : Int)
  | snei (rd rs1 : Reg) (imm : Int)
  | sgei (rd rs1 : Reg) (imm : Int)
  | muli (rd rs1 : Reg) (imm : Int)
  | divi (rd rs1 : Reg) (imm : Int)
  | remi (rd rs1 : Reg) (imm : Int)
  | lui (rd : Reg) (u20 : Nat)
  | lw (rd rs1 : Reg) (imm : Int)
  | sw (rs2 rs1 : Reg) (imm : Int)
  | beq (rs1 rs2 : Reg) (off : Int)
  | bne (rs1 rs2 : Reg) (off : Int)
  | blt (rs1 rs2 : Reg) (off : Int)
  | bge (rs1 rs2 : Reg) (off : Int)
  | jal (rd : Reg) (off : Int)
  | jalr (rd rs1 : Reg) (imm : Int)
  | ebreak
  | eread (rd : Reg)
  | ewrite (rs1 : Reg)
  deriving DecidableEq, Repr

/-- The operand fields that a range check can name (30_encoding.md R73, `EncodeError(field)`). -/
inductive OperandField where
  | rd | rs1 | rs2 | imm | shamt | off | u20
  deriving DecidableEq, Repr

end Sys2Proof
end

