-- ==== Sys2Proof/WellFormed.lean ====
section
/-! DEFINITION. Which instruction terms are well formed: "every integer lies in its stated range" (30_encoding.md R71,
R73). Register numbers and shift amounts are in range by their types. -/

namespace Sys2Proof

/-- The signed 12-bit range of formats I, S and B. -/
def inRange12 (n : Int) : Bool := decide (-2048 ≤ n) && decide (n ≤ 2047)

/-- The signed 20-bit range of `jal`'s offset. -/
def inRange20 (n : Int) : Bool := decide (-524288 ≤ n) && decide (n ≤ 524287)

/-- The unsigned 20-bit range of `lui`'s immediate. -/
def inRangeU20 (n : Nat) : Bool := decide (n ≤ 1048575)

/-- The operand field of `i` that is out of its range, if one is (R73). -/
def Instr.badField (i : Instr) : Option OperandField :=
  match i with
  | .add _ _ _ | .sub _ _ _ | .and _ _ _ | .or _ _ _ | .xor _ _ _ | .sll _ _ _ | .srl _ _ _ | .sra _ _ _
  | .slt _ _ _ | .seq _ _ _ | .sne _ _ _ | .sge _ _ _ | .mul _ _ _ | .div _ _ _ | .rem _ _ _ => none
  | .addi _ _ imm | .subi _ _ imm | .andi _ _ imm | .ori _ _ imm | .xori _ _ imm | .slti _ _ imm
  | .seqi _ _ imm | .snei _ _ imm | .sgei _ _ imm | .muli _ _ imm | .divi _ _ imm | .remi _ _ imm
  | .lw _ _ imm | .sw _ _ imm | .jalr _ _ imm => if inRange12 imm then none else some .imm
  | .slli _ _ _ | .srli _ _ _ | .srai _ _ _ => none
  | .lui _ u20 => if inRangeU20 u20 then none else some .u20
  | .beq _ _ off | .bne _ _ off | .blt _ _ off | .bge _ _ off => if inRange12 off then none else some .off
  | .jal _ off => if inRange20 off then none else some .off
  | .ebreak | .eread _ | .ewrite _ => none

/-- A well-formed instruction term (R71). -/
def Instr.wellFormed (i : Instr) : Bool := i.badField.isNone

end Sys2Proof
end

