-- ==== Sys2Proof/Decode.lean ====
section
/-! DEFINITION. The bit-field codec (00_scope.md R8, R9), OPCODE_MAP (30_encoding.md R89), the decoder (R75-R84), then the
encoder (R72-R74) and the encoder's requests with their range checks (R73). -/

namespace Sys2Proof

/-! ### Codec primitives (00_scope.md R8-R10; 30_encoding.md R61) -/

/-- `field(w, lo, width)` of R9: bits [lo, lo + width) read as an unsigned number. -/
def field (w : Word) (lo width : Nat) : Nat := w.toNat / 2 ^ lo % 2 ^ width

/-- The word whose low `width` bits are ones. -/
def lowOnes (width : Nat) : Word := BitVec.ofNat 32 (2 ^ width - 1)

/-- `put(w, lo, width, v)` of R9: bits [lo, lo + width) of `w` replaced by `v mod 2^width`. -/
def put (w : Word) (lo width : Nat) (v : Int) : Word :=
  (w &&& ~~~(lowOnes width <<< lo)) ||| ((wrap v &&& lowOnes width) <<< lo)

/-- `sext_n(v)` of R8: the low `n` bits of `v` read in two's complement, by modular arithmetic. -/
def sext (n : Nat) (v : Int) : Int := (v % 2 ^ n + 2 ^ (n - 1)) % 2 ^ n - 2 ^ (n - 1)

/-- `a : b` of R10, for a string `b` of `width` bits. -/
def cat (a width b : Nat) : Nat := a * 2 ^ width + b

/-- A five-bit register field (30_encoding.md R62). -/
def regField (w : Word) (lo : Nat) : Reg := Fin.ofNat 32 (field w lo 5)

/-! ### The opcode map (30_encoding.md R63, R72, R89) -/

/-- The formats of R63. `Ish` is format I with the split immediate of the shift-immediates (R65), `U` is read unsigned by
`lui` and `Uj` is the same layout read signed by `jal` (R68), and the three `E` forms differ in which register field is an
operand (R69). -/
inductive Format where
  | R | I | Ish | S | B | U | Uj | Ehalt | Eread | Ewrite
  deriving DecidableEq, Repr

/-- The format of a row (R89). OPCODE_MAP's numbers do not change it. -/
def Mnemonic.format (m : Mnemonic) : Format :=
  match m with
  | .add | .sub | .and | .or | .xor | .sll | .srl | .sra | .slt | .seq | .sne | .sge | .mul | .div | .rem => .R
  | .addi | .subi | .andi | .ori | .xori | .slti | .seqi | .snei | .sgei | .muli | .divi | .remi | .lw | .jalr => .I
  | .slli | .srli | .srai => .Ish
  | .sw => .S
  | .beq | .bne | .blt | .bge => .B
  | .lui => .U
  | .jal => .Uj
  | .ebreak => .Ehalt
  | .eread => .Eread
  | .ewrite => .Ewrite

/-- The numbers of one row of OPCODE_MAP: opcode, funct3, and funct7 (the shift selector for `Ish`, the code for format
E). A column the format does not use is not read. -/
structure Codes where
  opcode : BitVec 7
  funct3 : BitVec 3
  funct7 : BitVec 7
  deriving DecidableEq, Repr

/-- OPCODE_MAP as the configuration table it is (00_scope.md R5): the numbers of the 42 rows, in R89's order. Plain data,
so that a machine can carry it as a parameter of its run (10_state.md R36). -/
abbrev OpcodeMap := Vector Codes 42

/-- The place of a row in R89's order, from 0. -/
def Mnemonic.index (m : Mnemonic) : Fin 42 := ⟨m.ctorIdx, by cases m <;> decide⟩

/-- `OPCODE_MAP(mnemonic)` of R72. -/
def OpcodeMap.row (map : OpcodeMap) (m : Mnemonic) : Codes := map[m.index]

/-- The table with given numbers for each row. -/
def OpcodeMap.ofCodes (f : Mnemonic → Codes) : OpcodeMap := ⟨(Mnemonic.all.map f).toArray, rfl⟩

/-- The numbers of R89. -/
def defaultCodes (m : Mnemonic) : Codes :=
  match m with
  | .add => ⟨0x33, 0, 0x00⟩
  | .sub => ⟨0x33, 0, 0x20⟩
  | .and => ⟨0x33, 7, 0x00⟩
  | .or => ⟨0x33, 6, 0x00⟩
  | .xor => ⟨0x33, 4, 0x00⟩
  | .sll => ⟨0x33, 1, 0x00⟩
  | .srl => ⟨0x33, 5, 0x00⟩
  | .sra => ⟨0x33, 5, 0x20⟩
  | .slt => ⟨0x33, 2, 0x00⟩
  | .seq => ⟨0x33, 0, 0x10⟩
  | .sne => ⟨0x33, 1, 0x10⟩
  | .sge => ⟨0x33, 5, 0x10⟩
  | .mul => ⟨0x33, 0, 0x01⟩
  | .div => ⟨0x33, 4, 0x01⟩
  | .rem => ⟨0x33, 6, 0x01⟩
  | .addi => ⟨0x13, 0, 0x00⟩
  | .subi => ⟨0x0B, 0, 0x00⟩
  | .andi => ⟨0x13, 7, 0x00⟩
  | .ori => ⟨0x13, 6, 0x00⟩
  | .xori => ⟨0x13, 4, 0x00⟩
  | .slli => ⟨0x13, 1, 0x00⟩
  | .srli => ⟨0x13, 5, 0x00⟩
  | .srai => ⟨0x13, 5, 0x20⟩
  | .slti => ⟨0x13, 2, 0x00⟩
  | .seqi => ⟨0x0B, 1, 0x00⟩
  | .snei => ⟨0x0B, 2, 0x00⟩
  | .sgei => ⟨0x0B, 3, 0x00⟩
  | .muli => ⟨0x0B, 4, 0x00⟩
  | .divi => ⟨0x0B, 5, 0x00⟩
  | .remi => ⟨0x0B, 6, 0x00⟩
  | .lui => ⟨0x37, 0, 0x00⟩
  | .lw => ⟨0x03, 2, 0x00⟩
  | .sw => ⟨0x23, 2, 0x00⟩
  | .beq => ⟨0x63, 0, 0x00⟩
  | .bne => ⟨0x63, 1, 0x00⟩
  | .blt => ⟨0x63, 4, 0x00⟩
  | .bge => ⟨0x63, 5, 0x00⟩
  | .jal => ⟨0x6F, 0, 0x00⟩
  | .jalr => ⟨0x67, 0, 0x00⟩
  | .ebreak => ⟨0x73, 0, 0x00⟩
  | .eread => ⟨0x73, 0, 0x01⟩
  | .ewrite => ⟨0x73, 0, 0x02⟩

/-- The default OPCODE_MAP, R89. -/
def opcodeMap : OpcodeMap := .ofCodes defaultCodes

/-- Whether `w` is an encoding of row `m`: every bit that is no operand of the row's format agrees (30_encoding.md
R84). DESIGN CHOICE (log entry 22): a format E row is matched on the funct3 of the map, as on its other numbers. -/
def OpcodeMap.accepts (map : OpcodeMap) (m : Mnemonic) (w : Word) : Bool :=
  let c := map.row m
  let opcode := field w 0 7 == c.opcode.toNat
  let funct3 := field w 12 3 == c.funct3.toNat
  let funct7 := field w 25 7 == c.funct7.toNat
  match m.format with
  | .R | .Ish => opcode && funct3 && funct7
  | .I | .S | .B => opcode && funct3
  | .U | .Uj => opcode
  | .Ehalt => opcode && funct3 && funct7 && field w 7 5 == 0 && field w 15 5 == 0 && field w 20 5 == 0
  | .Eread => opcode && funct3 && funct7 && field w 15 5 == 0 && field w 20 5 == 0
  | .Ewrite => opcode && funct3 && funct7 && field w 7 5 == 0 && field w 20 5 == 0

/-- The condition that 00_scope.md R5 puts on an OPCODE_MAP: no word is accepted by two rows. -/
def OpcodeMap.Valid (map : OpcodeMap) : Prop :=
  ∀ m n w, map.accepts m w = true → map.accepts n w = true → m = n

/-- Whether the format's rows fix funct3. -/
def Format.fixesFunct3 (f : Format) : Bool :=
  match f with
  | .U | .Uj => false
  | .R | .I | .Ish | .S | .B | .Ehalt | .Eread | .Ewrite => true

/-- Whether the format's rows fix funct7. -/
def Format.fixesFunct7 (f : Format) : Bool :=
  match f with
  | .I | .S | .B | .U | .Uj => false
  | .R | .Ish | .Ehalt | .Eread | .Ewrite => true

/-- Whether two rows of the table differ in a code that both fix. -/
def OpcodeMap.rowsDiffer (map : OpcodeMap) (m n : Mnemonic) : Bool :=
  let c := map.row m
  let d := map.row n
  c.opcode != d.opcode || (m.format.fixesFunct3 && n.format.fixesFunct3 && c.funct3 != d.funct3) ||
    (m.format.fixesFunct7 && n.format.fixesFunct7 && c.funct7 != d.funct7)

/-- The condition `Valid` as a check that a table can be put to. -/
def OpcodeMap.check (map : OpcodeMap) : Bool :=
  Mnemonic.all.all fun m => Mnemonic.all.all fun n => m == n || map.rowsDiffer m n

/-! ### Operands of an instruction, one record for every format (30_encoding.md R70) -/

/-- The operand values of an instruction; a field its format has no use for is 0. `imm` holds the immediate, the offset,
the shift amount or `u20`. -/
structure Operands where
  rd : Reg := 0
  rs1 : Reg := 0
  rs2 : Reg := 0
  imm : Int := 0
  deriving DecidableEq, Repr

/-- The row of an instruction. -/
def Instr.mnemonic (i : Instr) : Mnemonic :=
  match i with
  | .add _ _ _ => .add
  | .sub _ _ _ => .sub
  | .and _ _ _ => .and
  | .or _ _ _ => .or
  | .xor _ _ _ => .xor
  | .sll _ _ _ => .sll
  | .srl _ _ _ => .srl
  | .sra _ _ _ => .sra
  | .slt _ _ _ => .slt
  | .seq _ _ _ => .seq
  | .sne _ _ _ => .sne
  | .sge _ _ _ => .sge
  | .mul _ _ _ => .mul
  | .div _ _ _ => .div
  | .rem _ _ _ => .rem
  | .addi _ _ _ => .addi
  | .subi _ _ _ => .subi
  | .andi _ _ _ => .andi
  | .ori _ _ _ => .ori
  | .xori _ _ _ => .xori
  | .slli _ _ _ => .slli
  | .srli _ _ _ => .srli
  | .srai _ _ _ => .srai
  | .slti _ _ _ => .slti
  | .seqi _ _ _ => .seqi
  | .snei _ _ _ => .snei
  | .sgei _ _ _ => .sgei
  | .muli _ _ _ => .muli
  | .divi _ _ _ => .divi
  | .remi _ _ _ => .remi
  | .lui _ _ => .lui
  | .lw _ _ _ => .lw
  | .sw _ _ _ => .sw
  | .beq _ _ _ => .beq
  | .bne _ _ _ => .bne
  | .blt _ _ _ => .blt
  | .bge _ _ _ => .bge
  | .jal _ _ => .jal
  | .jalr _ _ _ => .jalr
  | .ebreak => .ebreak
  | .eread _ => .eread
  | .ewrite _ => .ewrite

/-- The operand values of an instruction. -/
def Instr.operands (i : Instr) : Operands :=
  match i with
  | .add rd rs1 rs2 | .sub rd rs1 rs2 | .and rd rs1 rs2 | .or rd rs1 rs2 | .xor rd rs1 rs2 | .sll rd rs1 rs2
  | .srl rd rs1 rs2 | .sra rd rs1 rs2 | .slt rd rs1 rs2 | .seq rd rs1 rs2 | .sne rd rs1 rs2 | .sge rd rs1 rs2
  | .mul rd rs1 rs2 | .div rd rs1 rs2 | .rem rd rs1 rs2 => { rd := rd, rs1 := rs1, rs2 := rs2 }
  | .addi rd rs1 imm | .subi rd rs1 imm | .andi rd rs1 imm | .ori rd rs1 imm | .xori rd rs1 imm | .slti rd rs1 imm
  | .seqi rd rs1 imm | .snei rd rs1 imm | .sgei rd rs1 imm | .muli rd rs1 imm | .divi rd rs1 imm | .remi rd rs1 imm
  | .lw rd rs1 imm | .jalr rd rs1 imm => { rd := rd, rs1 := rs1, imm := imm }
  | .slli rd rs1 shamt | .srli rd rs1 shamt | .srai rd rs1 shamt => { rd := rd, rs1 := rs1, imm := shamt.val }
  | .lui rd u20 => { rd := rd, imm := u20 }
  | .sw rs2 rs1 imm => { rs1 := rs1, rs2 := rs2, imm := imm }
  | .beq rs1 rs2 off | .bne rs1 rs2 off | .blt rs1 rs2 off | .bge rs1 rs2 off => { rs1 := rs1, rs2 := rs2, imm := off }
  | .jal rd off => { rd := rd, imm := off }
  | .ebreak => {}
  | .eread rd => { rd := rd }
  | .ewrite rs1 => { rs1 := rs1 }

/-- The instruction of a row with given operand values (00_scope.md R14). -/
def Mnemonic.build (m : Mnemonic) (o : Operands) : Instr :=
  match m with
  | .add => .add o.rd o.rs1 o.rs2
  | .sub => .sub o.rd o.rs1 o.rs2
  | .and => .and o.rd o.rs1 o.rs2
  | .or => .or o.rd o.rs1 o.rs2
  | .xor => .xor o.rd o.rs1 o.rs2
  | .sll => .sll o.rd o.rs1 o.rs2
  | .srl => .srl o.rd o.rs1 o.rs2
  | .sra => .sra o.rd o.rs1 o.rs2
  | .slt => .slt o.rd o.rs1 o.rs2
  | .seq => .seq o.rd o.rs1 o.rs2
  | .sne => .sne o.rd o.rs1 o.rs2
  | .sge => .sge o.rd o.rs1 o.rs2
  | .mul => .mul o.rd o.rs1 o.rs2
  | .div => .div o.rd o.rs1 o.rs2
  | .rem => .rem o.rd o.rs1 o.rs2
  | .addi => .addi o.rd o.rs1 o.imm
  | .subi => .subi o.rd o.rs1 o.imm
  | .andi => .andi o.rd o.rs1 o.imm
  | .ori => .ori o.rd o.rs1 o.imm
  | .xori => .xori o.rd o.rs1 o.imm
  | .slli => .slli o.rd o.rs1 (Fin.ofNat 32 o.imm.toNat)
  | .srli => .srli o.rd o.rs1 (Fin.ofNat 32 o.imm.toNat)
  | .srai => .srai o.rd o.rs1 (Fin.ofNat 32 o.imm.toNat)
  | .slti => .slti o.rd o.rs1 o.imm
  | .seqi => .seqi o.rd o.rs1 o.imm
  | .snei => .snei o.rd o.rs1 o.imm
  | .sgei => .sgei o.rd o.rs1 o.imm
  | .muli => .muli o.rd o.rs1 o.imm
  | .divi => .divi o.rd o.rs1 o.imm
  | .remi => .remi o.rd o.rs1 o.imm
  | .lui => .lui o.rd o.imm.toNat
  | .lw => .lw o.rd o.rs1 o.imm
  | .sw => .sw o.rs2 o.rs1 o.imm
  | .beq => .beq o.rs1 o.rs2 o.imm
  | .bne => .bne o.rs1 o.rs2 o.imm
  | .blt => .blt o.rs1 o.rs2 o.imm
  | .bge => .bge o.rs1 o.rs2 o.imm
  | .jal => .jal o.rd o.imm
  | .jalr => .jalr o.rd o.rs1 o.imm
  | .ebreak => .ebreak
  | .eread => .eread o.rd
  | .ewrite => .ewrite o.rs1

/-! ### The decoder (30_encoding.md R75-R84) -/

/-- Why a word is Invalid. The spec has the one answer Invalid (R75, R86); the reason is the model's (log entry 16) and
nothing depends on it. -/
inductive Invalid where
  /-- no instruction has this opcode (R83); safe: the machine halts on it as R161 says -/
  | unassignedOpcode
  /-- the opcode's handler has no instruction with these function codes, selector or zero fields (R76-R82, R84); safe -/
  | unassignedFunction
  deriving DecidableEq, Repr

/-- The format handlers: how each operand is formed from the word (R64-R70). -/
def unpack (f : Format) (w : Word) : Operands :=
  match f with
  | .R => { rd := regField w 7, rs1 := regField w 15, rs2 := regField w 20 }
  | .I => { rd := regField w 7, rs1 := regField w 15, imm := sext 12 (field w 20 12) }
  | .Ish => { rd := regField w 7, rs1 := regField w 15, imm := field w 20 5 }
  | .S => { rs1 := regField w 15, rs2 := regField w 20, imm := sext 12 (cat (field w 25 7) 5 (field w 7 5)) }
  | .B =>
    { rs1 := regField w 15, rs2 := regField w 20,
      imm := sext 12 (cat (cat (cat (field w 31 1) 1 (field w 7 1)) 6 (field w 25 6)) 4 (field w 8 4)) }
  | .U => { rd := regField w 7, imm := field w 12 20 }
  | .Uj => { rd := regField w 7, imm := sext 20 (field w 12 20) }
  | .Ehalt => {}
  | .Eread => { rd := regField w 7 }
  | .Ewrite => { rs1 := regField w 15 }

/-- The opcode and function-code classifier (R75): the row that accepts the word, if one does. -/
def classify (map : OpcodeMap) (w : Word) : Option Mnemonic :=
  Mnemonic.all.find? fun m => map.accepts m w

/-- Whether some row of the map has the word's opcode. -/
def opcodeAssigned (map : OpcodeMap) (w : Word) : Bool :=
  Mnemonic.all.any fun m => field w 0 7 == (map.row m).opcode.toNat

/-- The decoder under an OPCODE_MAP: total, and strict (R75, R84). -/
def decodeWith (map : OpcodeMap) (w : Word) : Except Invalid Instr :=
  match classify map w with
  | some m => .ok (m.build (unpack m.format w))
  | none => .error (if opcodeAssigned map w then .unassignedFunction else .unassignedOpcode)

/-- The decoder at the default OPCODE_MAP. -/
def decode (w : Word) : Except Invalid Instr := decodeWith opcodeMap w

/-- The decoder on the host's numbering of an instruction's bits. An instruction is one 32-bit word (R60) and bit 0 is its
least significant bit (00_scope.md R6), so the word is the number; bits above `nbits` are 0 (log entry 5). -/
def decodeTableWord (nbits w : Nat) : Option Instr :=
  (decode (BitVec.ofNat 32 (w % 2 ^ nbits))).toOption

/-! ### The opcode/funct demultiplexer as R75-R82 tabulate it

The decoder above reads OPCODE_MAP. This is the decoder at its default, written from the handler tables; a statement says that
the two agree on every word. -/

/-- R76: funct7 and funct3 of opcode OP. -/
def handlerOp (f7 f3 : Nat) : Option Mnemonic :=
  match f7 with
  | 0b0000000 =>
    match f3 with
    | 0 => some .add | 1 => some .sll | 2 => some .slt | 4 => some .xor | 5 => some .srl | 6 => some .or
    | 7 => some .and | _ => none
  | 0b0100000 => match f3 with | 0 => some .sub | 5 => some .sra | _ => none
  | 0b0000001 => match f3 with | 0 => some .mul | 4 => some .div | 6 => some .rem | _ => none
  | 0b0010000 => match f3 with | 0 => some .seq | 1 => some .sne | 5 => some .sge | _ => none
  | _ => none

/-- R77: funct3 of opcode OP-IMM, with the shift selector in the funct7 position. -/
def handlerOpImm (f7 f3 : Nat) : Option Mnemonic :=
  match f3 with
  | 0 => some .addi
  | 1 => if f7 = 0b0000000 then some .slli else none
  | 2 => some .slti
  | 4 => some .xori
  | 5 => if f7 = 0b0000000 then some .srli else if f7 = 0b0100000 then some .srai else none
  | 6 => some .ori
  | 7 => some .andi
  | _ => none

/-- R78: funct3 of opcode OP-IMM-EXT. -/
def handlerOpImmExt (f3 : Nat) : Option Mnemonic :=
  match f3 with
  | 0 => some .subi | 1 => some .seqi | 2 => some .snei | 3 => some .sgei | 4 => some .muli | 5 => some .divi
  | 6 => some .remi | _ => none

/-- R80: funct3 of opcode BRANCH. -/
def handlerBranch (f3 : Nat) : Option Mnemonic :=
  match f3 with
  | 0 => some .beq | 1 => some .bne | 4 => some .blt | 5 => some .bge | _ => none

/-- R82: the SYSTEM handler. -/
def handlerSystem (w : Word) : Option Mnemonic :=
  if w = 0x00000073 then some .ebreak
  else if field w 25 7 = 1 ∧ field w 15 10 = 0 ∧ field w 12 3 = 0 then some .eread
  else if field w 25 7 = 2 ∧ field w 20 5 = 0 ∧ field w 12 3 = 0 ∧ field w 7 5 = 0 then some .ewrite
  else none

/-- R75, R79, R81, R83: the top level, by opcode. -/
def handlerTop (w : Word) : Option Mnemonic :=
  match field w 0 7 with
  | 0x33 => handlerOp (field w 25 7) (field w 12 3)
  | 0x13 => handlerOpImm (field w 25 7) (field w 12 3)
  | 0x0B => handlerOpImmExt (field w 12 3)
  | 0x03 => if field w 12 3 = 0b010 then some .lw else none
  | 0x23 => if field w 12 3 = 0b010 then some .sw else none
  | 0x63 => handlerBranch (field w 12 3)
  | 0x67 => if field w 12 3 = 0b000 then some .jalr else none
  | 0x6F => some .jal
  | 0x37 => some .lui
  | 0x73 => handlerSystem w
  | _ => none

/-! ### The encoder (30_encoding.md R72-R74) -/

/-- `EncodeError(field)` of R73: the operand that is out of its range. -/
structure EncodeError where
  field : OperandField
  deriving DecidableEq, Repr

/-- Field packing, R74: each field written with `put`, starting from the word 0.

DESIGN CHOICE (log entry 22): format E writes the funct3 of the map. R72 and R89 make funct3 a column of the map, while
R74's packing of format E leaves it 0 and R69 draws it as 000; the two agree at the default, where the column is 0. -/
def pack (f : Format) (c : Codes) (o : Operands) : Word :=
  let w := put 0 0 7 c.opcode.toNat
  match f with
  | .R => put (put (put (put (put w 7 5 o.rd) 12 3 c.funct3.toNat) 15 5 o.rs1) 20 5 o.rs2) 25 7 c.funct7.toNat
  | .I => put (put (put (put w 7 5 o.rd) 12 3 c.funct3.toNat) 15 5 o.rs1) 20 12 o.imm
  | .Ish => put (put (put (put (put w 7 5 o.rd) 12 3 c.funct3.toNat) 15 5 o.rs1) 20 5 o.imm) 25 7 c.funct7.toNat
  | .S =>
    put (put (put (put (put w 7 5 o.imm) 12 3 c.funct3.toNat) 15 5 o.rs1) 20 5 o.rs2) 25 7 (o.imm / 2 ^ 5)
  | .B =>
    let w := put (put w 7 1 (o.imm / 2 ^ 10)) 8 4 o.imm
    let w := put (put (put w 12 3 c.funct3.toNat) 15 5 o.rs1) 20 5 o.rs2
    put (put w 25 6 (o.imm / 2 ^ 4)) 31 1 (o.imm / 2 ^ 11)
  | .U | .Uj => put (put w 7 5 o.rd) 12 20 o.imm
  | .Ehalt => put (put w 12 3 c.funct3.toNat) 25 7 c.funct7.toNat
  | .Eread => put (put (put w 12 3 c.funct3.toNat) 25 7 c.funct7.toNat) 7 5 o.rd
  | .Ewrite => put (put (put w 12 3 c.funct3.toNat) 25 7 c.funct7.toNat) 15 5 o.rs1

/-- The encoder under an OPCODE_MAP: range check, format dispatch, packing (R72-R74). -/
def encodeWith (map : OpcodeMap) (i : Instr) : Except EncodeError Word :=
  match i.badField with
  | some f => .error ⟨f⟩
  | none => .ok (pack i.mnemonic.format (map.row i.mnemonic) i.operands)

/-- The encoder at the default OPCODE_MAP. -/
def encode (i : Instr) : Except EncodeError Word := encodeWith opcodeMap i

/-- What the encoder is asked for before its range checks: a row name and operand values of any size (R72, R73). `Instr`
cannot hold a register number or shift amount that is out of range, so those checks of R73 stand here (log entry 18). -/
structure Request where
  mnemonic : Mnemonic
  rd : Nat := 0
  rs1 : Nat := 0
  rs2 : Nat := 0
  imm : Int := 0
  deriving DecidableEq, Repr

/-- R73's checks of the register numbers, the shift amount and the sign of `lui`'s immediate; `badField` makes the
others. -/
def Request.badField (r : Request) : Option OperandField :=
  if 31 < r.rd then some .rd
  else if 31 < r.rs1 then some .rs1
  else if 31 < r.rs2 then some .rs2
  else
    match r.mnemonic.format with
    | .Ish => if r.imm < 0 ∨ 31 < r.imm then some .shamt else none
    | .U => if r.imm < 0 then some .u20 else none
    | .R | .I | .S | .B | .Uj | .Ehalt | .Eread | .Ewrite => none

/-- The encoder on a request, under an OPCODE_MAP: an error and no word for an operand out of its range (R73). -/
def encodeRequestWith (map : OpcodeMap) (r : Request) : Except EncodeError Word :=
  match r.badField with
  | some f => .error ⟨f⟩
  | none => encodeWith map (r.mnemonic.build ⟨Fin.ofNat 32 r.rd, Fin.ofNat 32 r.rs1, Fin.ofNat 32 r.rs2, r.imm⟩)

/-- The encoder on a request at the default OPCODE_MAP. -/
def encodeRequest (r : Request) : Except EncodeError Word := encodeRequestWith opcodeMap r

/-- The mask of a row, R89: the bits its format does not use as operands. -/
def Format.mask : Format → Word
  | .R | .Ish => 0xFE00707F
  | .I | .S | .B => 0x0000707F
  | .U | .Uj => 0x0000007F
  | .Ehalt => 0xFFFFFFFF
  | .Eread => 0xFFFFF07F
  | .Ewrite => 0xFFF07FFF

/-- The match value of a row, R89: its encoding with every operand 0. -/
def OpcodeMap.matchWord (map : OpcodeMap) (m : Mnemonic) : Word := pack m.format (map.row m) {}

end Sys2Proof
end

