-- ==== Sys2Proof/Config.lean ====
section
/-! DEFINITION. The implementation parameters of 00_scope.md R5 that belong to a run (10_state.md R36), with the spec's
defaults. The one parameter that is not here is the step limit, an argument of `run`. -/

namespace Sys2Proof

/-- DIV_ZERO_POLICY of 40_integer_computational.md R116. -/
inductive DivZeroPolicy where
  /-- a zero divisor raises DivideByZero (the default) -/
  | trap
  /-- a zero divisor gives the result 0 for quotient and remainder alike -/
  | zero
  deriving DecidableEq, Repr

/-- The parameters of one run: 10_state.md R36 keeps them apart from the state proper. -/
structure Params where
  /-- MEM_WORDS, the number of memory cells (20_memory.md R40) -/
  memWords : Nat
  /-- DIV_ZERO_POLICY (40_integer_computational.md R116) -/
  divZeroPolicy : DivZeroPolicy
  /-- OPCODE_MAP, the numbers that the fetch decodes by and the assembler encodes by (30_encoding.md R72, R89) -/
  opcodeMap : OpcodeMap
  /-- the input stream, owned by the host (10_state.md R31; 43_environment.md R180) -/
  input : List Word
  deriving DecidableEq, Repr

/-- The defaults of R5. The spec gives the input stream no default: DESIGN CHOICE, the empty stream (log entry 2, unsafe). -/
def Params.default : Params where
  memWords := 65536
  divZeroPolicy := .trap
  opcodeMap := Sys2Proof.opcodeMap
  input := []

/-- The parameters that the spec allows: MEM_WORDS in 1..2^32 (20_memory.md R40 by decision D11), and an OPCODE_MAP no two
rows of which accept a common word (00_scope.md R5).

DESIGN CHOICE (log entry 23): an OPCODE_MAP with a row that accepts the word 0 is allowed. 20_memory.md R48 lists that this
word is Invalid among the facts the ISA fixes, 30_encoding.md R83 derives it from the default numbers, and R5 asks only for
no common word. -/
def Params.valid (p : Params) : Bool :=
  decide (1 ≤ p.memWords) && decide (p.memWords ≤ 2 ^ 32) && p.opcodeMap.check

end Sys2Proof
end

