-- ==== Sys2Proof/Machine/State.lean ====
section
/-! DEFINITION. The machine's state (10_state.md R36), its value after reset (R37), and the reasons a step could stop. -/

namespace Sys2Proof.Machine

/-- The trap causes of 60_exceptions.md R223. -/
inductive TrapCause where
  /-- raised by the sequencer when the pc is not below MEM_WORDS (R222) -/
  | fetchOutOfRange
  /-- raised by `lw` (41_load_store.md R151) -/
  | loadOutOfRange
  /-- raised by `sw` (41_load_store.md R152) -/
  | storeOutOfRange
  /-- raised by `div`, `rem`, `divi`, `remi` (40_integer_computational.md R116) -/
  | divideByZero
  deriving DecidableEq, Repr

/-- A trap: its cause and the value recorded with it (10_state.md R28). -/
structure Trap where
  cause : TrapCause
  value : Word
  deriving DecidableEq, Repr

/-- Memory contents: slot and word, slots strictly rising, no word 0 listed. A slot that is not listed holds 0, the reset
value of every cell (20_memory.md R48; log entry 1). -/
abbrev Memory := List (Nat × Word)

/-- The state proper: the record of 10_state.md R36, its eight fields and no other. -/
structure Architectural where
  /-- general registers x0..x31 (R20); cell 0 is never read or written (R21, R22) -/
  x : Vector Word 32
  /-- slot index of the next instruction to fetch (R26) -/
  pc : Word
  /-- the memory cells (R34) -/
  mem : Memory
  /-- the halted flag (R27) -/
  halted : Bool
  /-- the trap record (R28) -/
  trap : Option Trap
  /-- whether a step has run since the last load or reset (R29) -/
  started : Bool
  /-- input characters consumed (R30) -/
  cursor : Nat
  /-- the output sink, oldest first (R31) -/
  out : List Word
  deriving DecidableEq, Repr

/-- A machine in its run: the state proper, and beside it the parameters of the run, which are no state (R36) and which no
step changes. The host's step takes one value, so they stand together (log entry 2). -/
structure State extends Architectural where
  /-- MEM_WORDS, DIV_ZERO_POLICY, OPCODE_MAP and the input stream (00_scope.md R5), read-only -/
  params : Params
  deriving DecidableEq, Repr

/-- The machine right after reset, 10_state.md R37 and 70_reset_and_hazards.md R240, with the default parameters. -/
def State.reset : State where
  x := Vector.replicate 32 0
  pc := 0
  mem := []
  halted := false
  trap := none
  started := false
  cursor := 0
  out := []
  params := Params.default

/-- Faults that end the model. There are none: each fault of the spec is a trap, whose effect on the state 60_exceptions.md
R224 gives, so it is a next state (log entry 8). -/
inductive Fault where
  deriving DecidableEq, Repr

/-- Refusals. -/
inductive Refusal where
  /-- raised by `exec` for an instruction that has no meaning yet; safe. No instruction is left so. -/
  | notModelled (mnemonic : String)
  deriving DecidableEq, Repr

/-- What one step or one instruction answers. -/
abbrev Result := Host.Outcome State Fault Refusal

end Sys2Proof.Machine
end

