-- ==== Sys2Proof/Machine/Ops.lean ====
section
/-! DEFINITION. The named operations over registers, memory, the I/O streams and the pc (00_scope.md R11), and taking a
trap (60_exceptions.md R224). There is no return from a trap (R228): only load or reset leave a trapped machine. -/

namespace Sys2Proof.Machine

/-! ### General registers -/

/-- `x[r]` read: x0 reads 0 (10_state.md R21). -/
def State.readReg (s : State) (r : Reg) : Word := if r = 0 then 0 else s.x[r]

/-- `x[r] <- v`: a write to x0 is discarded (10_state.md R22). -/
def State.writeReg (s : State) (r : Reg) (v : Word) : State := { s with x := if r = 0 then s.x else s.x.set r v }

/-! ### Memory cells -/

/-- The word in a cell: a slot that is not listed holds 0 (20_memory.md R48). -/
def Memory.read (m : Memory) (a : Nat) : Word :=
  match m with
  | [] => 0
  | (b, v) :: rest => if a = b then v else Memory.read rest a

/-- The memory with one whole word replaced (20_memory.md R43), in canonical form: slots rising, no 0 listed. -/
def Memory.write (m : Memory) (a : Nat) (v : Word) : Memory :=
  match m with
  | [] => if v = 0 then [] else [(a, v)]
  | (b, u) :: rest =>
    if a < b then (if v = 0 then (b, u) :: rest else (a, v) :: (b, u) :: rest)
    else if a = b then (if v = 0 then rest else (a, v) :: rest)
    else (b, u) :: Memory.write rest a v

/-- Every listed slot is above `n`, slots rise strictly, and no listed word is 0. -/
def Memory.wfAbove (n : Nat) (m : Memory) : Bool :=
  match m with
  | [] => true
  | (b, u) :: rest => decide (n ≤ b) && decide (u ≠ 0) && Memory.wfAbove (b + 1) rest

/-- The canonical form of a memory. -/
def Memory.wf (m : Memory) : Bool := Memory.wfAbove 0 m

/-- Every listed slot is one of the MEM_WORDS cells. -/
def Memory.within (m : Memory) (memWords : Nat) : Bool := m.all fun c => decide (c.1 < memWords)

/-- Words written to consecutive slots from `a` on (70_reset_and_hazards.md R241, third item). -/
def Memory.writeImage (m : Memory) (a : Nat) (ws : List Word) : Memory :=
  match ws with
  | [] => m
  | w :: rest => Memory.writeImage (Memory.write m a w) (a + 1) rest

/-- Whether a word address names a cell: `uint(a) < MEM_WORDS` (20_memory.md R40, R41). -/
def State.inMemory (s : State) (a : Word) : Bool := decide (uint a < s.params.memWords)

/-- `MemRead(a, 1)`: none where the caller raises its out-of-range cause (20_memory.md R42). -/
def State.memRead (s : State) (a : Word) : Option Word :=
  if s.inMemory a then some (s.mem.read (uint a)) else none

/-- `MemWrite(a, 1, v)`: none where the caller raises StoreOutOfRange (20_memory.md R43). -/
def State.memWrite (s : State) (a v : Word) : Option State :=
  if s.inMemory a then some { s with mem := s.mem.write (uint a) v } else none

/-! ### Program counter and control -/

/-- `pc <- target` (00_scope.md R11). -/
def State.setPc (s : State) (target : Word) : State := { s with pc := target }

/-- The state in which an instruction executes: `started` set and the pc one slot on, modulo 2^32 (42_control_transfer.md
R160, R162). -/
def State.advance (s : State) : State := { s with pc := s.pc + 1, started := true }

/-- `halt` (00_scope.md R11; 10_state.md R27). -/
def State.halt (s : State) : State := { s with halted := true }

/-- A step that ends in a trap, from the state before the step: exactly `halted`, the trap record and `started` change
(60_exceptions.md R224). -/
def State.takeTrap (s : State) (t : Trap) : State := { s with halted := true, trap := some t, started := true }

/-- A fetch of an Invalid word: halted, pc left on the slot, no trap recorded (42_control_transfer.md R161). -/
def State.stopAtInvalid (s : State) : State := { s with halted := true, started := true }

/-! ### The I/O streams -/

/-- `InRead()`: the next input code, or 0 with the cursor pinned at the end (43_environment.md R180). -/
def State.inRead (s : State) : Word × State :=
  match s.params.input[s.cursor]? with
  | some v => (v, { s with cursor := s.cursor + 1 })
  | none => (0, s)

/-- `OutWrite(v)`: the whole word appended to the output (43_environment.md R181). -/
def State.outWrite (s : State) (v : Word) : State := { s with out := s.out ++ [v] }

end Sys2Proof.Machine
end

