-- ==== Sys2Proof/Machine/Flags.lean ====
section
/-! DEFINITION. Comparisons. The machine has no flags (10_state.md R32): a comparison is a Boolean that a set instruction
writes to a register as 1 or 0, or that a branch tests. -/

namespace Sys2Proof.Machine

/-- Signed less-than (40_integer_computational.md R109; 42_control_transfer.md R165 `blt`). -/
def lessThan (a b : Word) : Bool := BitVec.slt a b

/-- Equality (40_integer_computational.md R110; 42_control_transfer.md R165 `beq`). -/
def equalTo (a b : Word) : Bool := a == b

/-- The value a comparison writes: 1 when true, 0 when false (40_integer_computational.md R109-R112). -/
def truthWord (c : Bool) : Word := if c then 1 else 0

/-- The branch operations of 30_encoding.md R71. -/
inductive BranchOp where
  | beq | bne | blt | bge
  deriving DecidableEq, Repr

/-- `cond(op, a, b)` of 42_control_transfer.md R165. -/
def branchTaken (op : BranchOp) (a b : Word) : Bool :=
  match op with
  | .beq => equalTo a b
  | .bne => !equalTo a b
  | .blt => lessThan a b
  | .bge => !lessThan a b

end Sys2Proof.Machine
end

