-- ==== Sys2Proof/Machine/Alu.lean ====
section
/-! DEFINITION. The ALU as a pure function (40_integer_computational.md R100-R116). -/

namespace Sys2Proof.Machine

/-- The ALU operations of R100. -/
inductive AluOp where
  | add | sub | and | or | xor | sll | srl | sra | slt | seq | sne | sge | mul | div | rem
  deriving DecidableEq, Repr

/-- What the ALU returns: a word, or the fault DivideByZero (R100, R116). -/
inductive AluResult where
  | value (v : Word)
  | divideByZero
  deriving DecidableEq, Repr

/-- The amount of a shift: the low five bits of the operand (R106-R108). -/
def shiftAmount (b : Word) : Nat := uint b % 32

/-- A quotient or remainder with R116's answer for a zero divisor. -/
def guardZero (policy : DivZeroPolicy) (b v : Word) : AluResult :=
  if b = 0 then
    match policy with
    | .trap => .divideByZero
    | .zero => .value 0
  else .value v

/-- `alu(op, a, b)`: ADD, SUB and MUL modulo 2^32, bitwise logic, shifts by the amount modulo 32, comparisons as 1 or 0,
division rounding toward zero and its remainder (R101-R115). -/
def alu (policy : DivZeroPolicy) (op : AluOp) (a b : Word) : AluResult :=
  match op with
  | .add => .value (a + b)
  | .sub => .value (a - b)
  | .and => .value (a &&& b)
  | .or => .value (a ||| b)
  | .xor => .value (a ^^^ b)
  | .sll => .value (a <<< shiftAmount b)
  | .srl => .value (a >>> shiftAmount b)
  | .sra => .value (BitVec.sshiftRight a (shiftAmount b))
  | .slt => .value (truthWord (lessThan a b))
  | .seq => .value (truthWord (equalTo a b))
  | .sne => .value (truthWord (!equalTo a b))
  | .sge => .value (truthWord (!lessThan a b))
  | .mul => .value (a * b)
  | .div => guardZero policy b (BitVec.sdiv a b)
  | .rem => guardZero policy b (BitVec.srem a b)

end Sys2Proof.Machine
end

