-- ==== Sys2Proof/Machine/Operands.lean ====
section
/-! DEFINITION. Every way an instruction forms an operand, an address or a target (30_encoding.md R70). A register operand
is `State.readReg`. -/

namespace Sys2Proof.Machine

/-- The second ALU operand of a register-immediate instruction (40_integer_computational.md R133). -/
def immediateOperand (imm : Int) : Word := wrap imm

/-- The second ALU operand of a shift-immediate (40_integer_computational.md R133). -/
def shamtOperand (shamt : Fin 32) : Word := BitVec.ofNat 32 shamt.val

/-- The value `lui` writes: u20 in bits 31..12, zeros below (40_integer_computational.md R149; 30_encoding.md R68). -/
def upperImmediate (u20 : Nat) : Word := BitVec.ofNat 32 u20 <<< 12

/-- Base register plus signed offset in words, modulo 2^32 (41_load_store.md R150). -/
def effectiveAddress (s : State) (rs1 : Reg) (imm : Int) : Word := s.readReg rs1 + wrap imm

/-- The value `pc` has as an operand, and the link value: the slot after the instruction (00_scope.md R11;
42_control_transfer.md R162, R170). -/
def nextSlot (s : State) : Word := s.pc + 1

/-- The target of a branch or of `jal`: the slot after the instruction plus the offset in slots (42_control_transfer.md
R165, R170). -/
def relativeTarget (s : State) (off : Int) : Word := nextSlot s + wrap off

/-- The target of `jalr`: an absolute slot index, no bit cleared (42_control_transfer.md R171). -/
def absoluteTarget (s : State) (rs1 : Reg) (imm : Int) : Word := s.readReg rs1 + wrap imm

end Sys2Proof.Machine
end

