-- ==== Sys2Proof/Machine/Arithmetic.lean ====
section
/-! DEFINITION. The register-register, register-immediate and upper-immediate instructions (40_integer_computational.md
R117-R149). -/

namespace Sys2Proof.Machine

/-- An ALU operation written to `rd` (R117, R133): the operands are read before the write, and DivideByZero raises with
the slot of the instruction and no other effect (60_exceptions.md R223, R224). -/
def aluInto (op : AluOp) (rd : Reg) (a b : Word) (s : State) : Result :=
  match alu s.params.divZeroPolicy op a b with
  | .divideByZero => .next (s.takeTrap ⟨.divideByZero, s.pc⟩)
  | .value v => .next (s.advance.writeReg rd v)

/-- Format R: both operands are registers (R117). -/
def aluRegister (op : AluOp) (rd rs1 rs2 : Reg) (s : State) : Result :=
  aluInto op rd (s.readReg rs1) (s.readReg rs2) s

/-- Format I: the second operand is the sign-extended immediate (R133). -/
def aluImmediate (op : AluOp) (rd rs1 : Reg) (imm : Int) (s : State) : Result :=
  aluInto op rd (s.readReg rs1) (immediateOperand imm) s

/-- Format I, shift form: the second operand is the shift amount (R133). -/
def aluShamt (op : AluOp) (rd rs1 : Reg) (shamt : Fin 32) (s : State) : Result :=
  aluInto op rd (s.readReg rs1) (shamtOperand shamt) s

/-- `add rd, rs1, rs2`: add (R118). -/
def execAdd (rd rs1 rs2 : Reg) (s : State) : Result := aluRegister .add rd rs1 rs2 s

/-- `sub rd, rs1, rs2`: subtract (R119). -/
def execSub (rd rs1 rs2 : Reg) (s : State) : Result := aluRegister .sub rd rs1 rs2 s

/-- `and rd, rs1, rs2`: bitwise AND (R120). -/
def execAnd (rd rs1 rs2 : Reg) (s : State) : Result := aluRegister .and rd rs1 rs2 s

/-- `or rd, rs1, rs2`: bitwise OR (R121). -/
def execOr (rd rs1 rs2 : Reg) (s : State) : Result := aluRegister .or rd rs1 rs2 s

/-- `xor rd, rs1, rs2`: bitwise exclusive OR (R122). -/
def execXor (rd rs1 rs2 : Reg) (s : State) : Result := aluRegister .xor rd rs1 rs2 s

/-- `sll rd, rs1, rs2`: shift left logical by register (R123). -/
def execSll (rd rs1 rs2 : Reg) (s : State) : Result := aluRegister .sll rd rs1 rs2 s

/-- `srl rd, rs1, rs2`: shift right logical by register (R124). -/
def execSrl (rd rs1 rs2 : Reg) (s : State) : Result := aluRegister .srl rd rs1 rs2 s

/-- `sra rd, rs1, rs2`: shift right arithmetic by register (R125). -/
def execSra (rd rs1 rs2 : Reg) (s : State) : Result := aluRegister .sra rd rs1 rs2 s

/-- `slt rd, rs1, rs2`: set if less than, signed (R126). -/
def execSlt (rd rs1 rs2 : Reg) (s : State) : Result := aluRegister .slt rd rs1 rs2 s

/-- `seq rd, rs1, rs2`: set if equal (R127). -/
def execSeq (rd rs1 rs2 : Reg) (s : State) : Result := aluRegister .seq rd rs1 rs2 s

/-- `sne rd, rs1, rs2`: set if not equal (R128). -/
def execSne (rd rs1 rs2 : Reg) (s : State) : Result := aluRegister .sne rd rs1 rs2 s

/-- `sge rd, rs1, rs2`: set if greater than or equal, signed (R129). -/
def execSge (rd rs1 rs2 : Reg) (s : State) : Result := aluRegister .sge rd rs1 rs2 s

/-- `mul rd, rs1, rs2`: multiply, low 32 bits (R130). -/
def execMul (rd rs1 rs2 : Reg) (s : State) : Result := aluRegister .mul rd rs1 rs2 s

/-- `div rd, rs1, rs2`: signed divide, rounding toward zero (R131). -/
def execDiv (rd rs1 rs2 : Reg) (s : State) : Result := aluRegister .div rd rs1 rs2 s

/-- `rem rd, rs1, rs2`: signed remainder, sign of the dividend (R132). -/
def execRem (rd rs1 rs2 : Reg) (s : State) : Result := aluRegister .rem rd rs1 rs2 s

/-- `addi rd, rs1, imm`: add immediate (R134). -/
def execAddi (rd rs1 : Reg) (imm : Int) (s : State) : Result := aluImmediate .add rd rs1 imm s

/-- `subi rd, rs1, imm`: subtract immediate (R135). -/
def execSubi (rd rs1 : Reg) (imm : Int) (s : State) : Result := aluImmediate .sub rd rs1 imm s

/-- `andi rd, rs1, imm`: AND immediate, sign-extended (R136). -/
def execAndi (rd rs1 : Reg) (imm : Int) (s : State) : Result := aluImmediate .and rd rs1 imm s

/-- `ori rd, rs1, imm`: OR immediate, sign-extended (R137). -/
def execOri (rd rs1 : Reg) (imm : Int) (s : State) : Result := aluImmediate .or rd rs1 imm s

/-- `xori rd, rs1, imm`: XOR immediate, sign-extended (R138). -/
def execXori (rd rs1 : Reg) (imm : Int) (s : State) : Result := aluImmediate .xor rd rs1 imm s

/-- `slli rd, rs1, shamt`: shift left logical by immediate (R139). -/
def execSlli (rd rs1 : Reg) (shamt : Fin 32) (s : State) : Result := aluShamt .sll rd rs1 shamt s

/-- `srli rd, rs1, shamt`: shift right logical by immediate (R140). -/
def execSrli (rd rs1 : Reg) (shamt : Fin 32) (s : State) : Result := aluShamt .srl rd rs1 shamt s

/-- `srai rd, rs1, shamt`: shift right arithmetic by immediate (R141). -/
def execSrai (rd rs1 : Reg) (shamt : Fin 32) (s : State) : Result := aluShamt .sra rd rs1 shamt s

/-- `slti rd, rs1, imm`: set if less than immediate, signed (R142). -/
def execSlti (rd rs1 : Reg) (imm : Int) (s : State) : Result := aluImmediate .slt rd rs1 imm s

/-- `seqi rd, rs1, imm`: set if equal to immediate (R143). -/
def execSeqi (rd rs1 : Reg) (imm : Int) (s : State) : Result := aluImmediate .seq rd rs1 imm s

/-- `snei rd, rs1, imm`: set if not equal to immediate (R144). -/
def execSnei (rd rs1 : Reg) (imm : Int) (s : State) : Result := aluImmediate .sne rd rs1 imm s

/-- `sgei rd, rs1, imm`: set if greater than or equal to immediate, signed (R145). -/
def execSgei (rd rs1 : Reg) (imm : Int) (s : State) : Result := aluImmediate .sge rd rs1 imm s

/-- `muli rd, rs1, imm`: multiply by immediate, low 32 bits (R146). -/
def execMuli (rd rs1 : Reg) (imm : Int) (s : State) : Result := aluImmediate .mul rd rs1 imm s

/-- `divi rd, rs1, imm`: signed divide by immediate (R147). -/
def execDivi (rd rs1 : Reg) (imm : Int) (s : State) : Result := aluImmediate .div rd rs1 imm s

/-- `remi rd, rs1, imm`: signed remainder by immediate (R148). -/
def execRemi (rd rs1 : Reg) (imm : Int) (s : State) : Result := aluImmediate .rem rd rs1 imm s

/-- `lui rd, u20`: load upper immediate (R149). -/
def execLui (rd : Reg) (u20 : Nat) (s : State) : Result := .next (s.advance.writeReg rd (upperImmediate u20))

end Sys2Proof.Machine
end

