-- ==== Sys2Proof/Machine/Control.lean ====
section
/-! DEFINITION. Conditional branches and jumps (42_control_transfer.md R165-R172). -/

namespace Sys2Proof.Machine

/-- A conditional branch: the target is not checked here (R165). -/
def branch (op : BranchOp) (rs1 rs2 : Reg) (off : Int) (s : State) : Result :=
  if branchTaken op (s.readReg rs1) (s.readReg rs2) then .next (s.advance.setPc (relativeTarget s off))
  else .next s.advance

/-- A jump with link: the target comes from the old registers, and is not checked here (R170, R171). -/
def jumpAndLink (rd : Reg) (target : Word) (s : State) : Result :=
  .next ((s.advance.writeReg rd (nextSlot s)).setPc target)

/-- `beq rs1, rs2, off`: branch if equal (R166). -/
def execBeq (rs1 rs2 : Reg) (off : Int) (s : State) : Result := branch .beq rs1 rs2 off s

/-- `bne rs1, rs2, off`: branch if not equal (R167). -/
def execBne (rs1 rs2 : Reg) (off : Int) (s : State) : Result := branch .bne rs1 rs2 off s

/-- `blt rs1, rs2, off`: branch if less than, signed (R168). -/
def execBlt (rs1 rs2 : Reg) (off : Int) (s : State) : Result := branch .blt rs1 rs2 off s

/-- `bge rs1, rs2, off`: branch if greater than or equal, signed (R169). -/
def execBge (rs1 rs2 : Reg) (off : Int) (s : State) : Result := branch .bge rs1 rs2 off s

/-- `jal rd, off`: jump and link, relative to the slot after it (R170). -/
def execJal (rd : Reg) (off : Int) (s : State) : Result := jumpAndLink rd (relativeTarget s off) s

/-- `jalr rd, rs1, imm`: jump and link to an absolute slot (R171). -/
def execJalr (rd rs1 : Reg) (imm : Int) (s : State) : Result := jumpAndLink rd (absoluteTarget s rs1 imm) s

end Sys2Proof.Machine
end

