-- ==== Sys2Proof/Machine/Environment.lean ====
section
/-! DEFINITION. The environment calls (43_environment.md R180-R185). -/

namespace Sys2Proof.Machine

/-- `ebreak`: halt, with the pc already advanced and no trap recorded (R182). -/
def execEbreak (s : State) : Result := .next s.advance.halt

/-- `eread rd`: the next input code, or 0 past the end, into rd; the code is consumed for rd = x0 too (R183). -/
def execEread (rd : Reg) (s : State) : Result := .next (s.advance.inRead.2.writeReg rd s.advance.inRead.1)

/-- `ewrite rs1`: the whole register appended to the output (R184). -/
def execEwrite (rs1 : Reg) (s : State) : Result := .next (s.advance.outWrite (s.readReg rs1))

end Sys2Proof.Machine
end

