-- ==== Sys2Proof/Machine/LoadStore.lean ====
section
/-! DEFINITION. The load and the store (41_load_store.md R150-R153). -/

namespace Sys2Proof.Machine

/-- `lw rd, rs1, imm`: load word, or LoadOutOfRange(ea) with nothing written; the check is made for rd = x0 too (R151). -/
def execLw (rd rs1 : Reg) (imm : Int) (s : State) : Result :=
  match s.memRead (effectiveAddress s rs1 imm) with
  | some v => .next (s.advance.writeReg rd v)
  | none => .next (s.takeTrap ⟨.loadOutOfRange, effectiveAddress s rs1 imm⟩)

/-- `sw rs2, imm(rs1)`: store word, or StoreOutOfRange(ea) with memory unchanged (R152). -/
def execSw (rs2 rs1 : Reg) (imm : Int) (s : State) : Result :=
  match s.advance.memWrite (effectiveAddress s rs1 imm) (s.readReg rs2) with
  | some t => .next t
  | none => .next (s.takeTrap ⟨.storeOutOfRange, effectiveAddress s rs1 imm⟩)

end Sys2Proof.Machine
end

