-- ==== Sys2Proof/Machine/Sequencer.lean ====
section
/-! DEFINITION. The program-counter sequencer: fetch, and one step (42_control_transfer.md R160-R163). -/

namespace Sys2Proof.Machine

/-- What a fetch finds (60_exceptions.md R225: the range check comes first, then the decode). -/
inductive Fetch where
  /-- the pc names no cell (60_exceptions.md R222) -/
  | outOfRange
  /-- the word decodes as Invalid (42_control_transfer.md R161) -/
  | invalid (why : Invalid)
  | instr (i : Instr)
  deriving DecidableEq, Repr

/-- The fetch at the pc: the decoding, under the run's OPCODE_MAP, of the word that the cell holds now (20_memory.md R50;
42_control_transfer.md R161). -/
def fetch (s : State) : Fetch :=
  match s.memRead s.pc with
  | none => .outOfRange
  | some w =>
    match decodeWith s.params.opcodeMap w with
    | .error why => .invalid why
    | .ok i => .instr i

/-- One step (42_control_transfer.md R160): nothing on a halted machine (R163), else fetch and then trap, halt or
execute. -/
def cycle (s : State) : Result :=
  if s.halted then .next s
  else
    match fetch s with
    | .outOfRange => .next (s.takeTrap ⟨.fetchOutOfRange, s.pc⟩)
    | .invalid _ => .next s.stopAtInvalid
    | .instr i => exec i s

/-- The state with `w` in the cell that the next step fetches. A halted machine fetches nothing and a pc outside memory
names no cell, so `halted` is cleared, and such a pc becomes 0 (log entry 4). -/
def State.placeWord (s : State) (w : Word) : State :=
  let pc := if s.inMemory s.pc then s.pc else 0
  { s with halted := false, pc := pc, mem := s.mem.write (uint pc) w }

end Sys2Proof.Machine
end

