-- ==== Sys2Proof/Machine/Disassembler.lean ====
section
/-! DEFINITION. Mnemonic spellings and the disassembly text (30_encoding.md R71, R88). -/

namespace Sys2Proof.Machine

/-- The lower-case spelling of a row of the opcode map (30_encoding.md R89). -/
def mnemonicText (m : Mnemonic) : String :=
  match m with
  | .add => "add"
  | .sub => "sub"
  | .and => "and"
  | .or => "or"
  | .xor => "xor"
  | .sll => "sll"
  | .srl => "srl"
  | .sra => "sra"
  | .slt => "slt"
  | .seq => "seq"
  | .sne => "sne"
  | .sge => "sge"
  | .mul => "mul"
  | .div => "div"
  | .rem => "rem"
  | .addi => "addi"
  | .subi => "subi"
  | .andi => "andi"
  | .ori => "ori"
  | .xori => "xori"
  | .slli => "slli"
  | .srli => "srli"
  | .srai => "srai"
  | .slti => "slti"
  | .seqi => "seqi"
  | .snei => "snei"
  | .sgei => "sgei"
  | .muli => "muli"
  | .divi => "divi"
  | .remi => "remi"
  | .lui => "lui"
  | .lw => "lw"
  | .sw => "sw"
  | .beq => "beq"
  | .bne => "bne"
  | .blt => "blt"
  | .bge => "bge"
  | .jal => "jal"
  | .jalr => "jalr"
  | .ebreak => "ebreak"
  | .eread => "eread"
  | .ewrite => "ewrite"

/-- `x<n>` in decimal (R88). -/
def regText (r : Reg) : String := "x" ++ toString r.val

/-- The operands of an instruction as R88 writes them, in the order of the assembler's line shapes (44_assembler.md
R192). -/
def operandsText (f : Format) (o : Operands) : String :=
  match f with
  | .R => " " ++ regText o.rd ++ ", " ++ regText o.rs1 ++ ", " ++ regText o.rs2
  | .I | .Ish => " " ++ regText o.rd ++ ", " ++ regText o.rs1 ++ ", " ++ toString o.imm
  | .S => " " ++ regText o.rs2 ++ ", " ++ toString o.imm ++ "(" ++ regText o.rs1 ++ ")"
  | .B => " " ++ regText o.rs1 ++ ", " ++ regText o.rs2 ++ ", " ++ toString o.imm
  | .U | .Uj => " " ++ regText o.rd ++ ", " ++ toString o.imm
  | .Ehalt => ""
  | .Eread => " " ++ regText o.rd
  | .Ewrite => " " ++ regText o.rs1

/-- The canonical text of an instruction (R88). -/
def instrText (i : Instr) : String :=
  mnemonicText i.mnemonic ++ operandsText i.mnemonic.format i.operands

/-- The text of a word under an OPCODE_MAP: none where the word is Invalid (R88). -/
def disassemble (map : OpcodeMap) (w : Word) : Option String := (decodeWith map w).toOption.map instrText

end Sys2Proof.Machine
end

