-- ==== Sys2Proof/Machine/Assembler.lean ====
section
/-! DEFINITION. The two-pass assembler that `load` runs (44_assembler.md R190-R208): surrounding software (00_scope.md
R3), a function of the source text, MEM_WORDS and OPCODE_MAP. -/

namespace Sys2Proof.Machine

/-- Source characters. -/
abbrev Text := List Char

/-! ### Lexical rules (R191; log entry 12) -/

/-- A token: a run of characters without blanks or punctuation, or one punctuation character. -/
inductive Token where
  | word (t : Text)
  | punct (c : Char)
  deriving DecidableEq, Repr

/-- The blanks of R191: spaces and tabs. -/
def isBlank (c : Char) : Bool := c == ' ' || c == '\t'

/-- The punctuation of the line shapes of R192. -/
def isPunct (c : Char) : Bool := c == ',' || c == '(' || c == ')' || c == '*' || c == ':'

/-- A pending word as a token, if it holds a character. -/
def flushWord (acc : Text) : List Token :=
  match acc with
  | [] => []
  | c :: cs => [.word (c :: cs).reverse]

/-- The tokens of a line, `acc` being the characters of the word begun, last first. -/
def tokensFrom (acc : Text) (line : Text) : List Token :=
  match line with
  | [] => flushWord acc
  | c :: cs =>
    if isBlank c then flushWord acc ++ tokensFrom [] cs
    else if isPunct c then flushWord acc ++ .punct c :: tokensFrom [] cs
    else tokensFrom (c :: acc) cs

/-- The tokens of a line without its comment: everything from `#` on is ignored (R191). -/
def lineTokens (line : Text) : List Token := tokensFrom [] (line.takeWhile (· != '#'))

/-- The source cut at newlines, one instruction a line (R190); `acc` is the line begun, last character first. -/
def splitLines (acc : Text) (source : Text) : List Text :=
  match source with
  | [] => [acc.reverse]
  | c :: cs => if c == '\n' then acc.reverse :: splitLines [] cs else splitLines (c :: acc) cs

/-- A decimal digit. -/
def decimalDigit (c : Char) : Option Nat :=
  if '0'.toNat ≤ c.toNat ∧ c.toNat ≤ '9'.toNat then some (c.toNat - '0'.toNat) else none

/-- A hexadecimal digit in either case. -/
def hexDigit (c : Char) : Option Nat :=
  if 'a'.toNat ≤ c.toNat ∧ c.toNat ≤ 'f'.toNat then some (c.toNat - 'a'.toNat + 10)
  else if 'A'.toNat ≤ c.toNat ∧ c.toNat ≤ 'F'.toNat then some (c.toNat - 'A'.toNat + 10)
  else decimalDigit c

/-- Digits read to the end, `acc` being the value so far. -/
def digitsFrom (base : Nat) (digit : Char → Option Nat) (acc : Nat) (t : Text) : Option Nat :=
  match t with
  | [] => some acc
  | c :: cs =>
    match digit c with
    | some d => digitsFrom base digit (acc * base + d) cs
    | none => none

/-- A natural number in decimal, at least one digit. -/
def decimalNat (t : Text) : Option Nat :=
  match t with
  | [] => none
  | c :: cs => digitsFrom 10 decimalDigit 0 (c :: cs)

/-- A natural number in decimal, or in hexadecimal after `0x` (R191). -/
def unsignedNumber (t : Text) : Option Nat :=
  match t with
  | '0' :: 'x' :: d :: ds => digitsFrom 16 hexDigit 0 (d :: ds)
  | '0' :: 'X' :: d :: ds => digitsFrom 16 hexDigit 0 (d :: ds)
  | _ => decimalNat t

/-- An immediate: an optional sign, then an unsigned number (R191). -/
def immediateText (t : Text) : Option Int :=
  match t with
  | '-' :: ds => (unsignedNumber ds).map fun n => -(n : Int)
  | '+' :: ds => (unsignedNumber ds).map fun n => (n : Int)
  | _ => (unsignedNumber t).map fun n => (n : Int)

/-- A register number 0..31 in decimal with no leading zero (R191). -/
def registerDigits (ds : Text) : Option Reg :=
  match ds, decimalNat ds with
  | '0' :: _ :: _, _ => none
  | _, some n => if h : n < 32 then some ⟨n, h⟩ else none
  | _, none => none

/-- A register name, `x0` to `x31`, the letter in either case (R191). -/
def registerName (t : Text) : Option Reg :=
  match t with
  | 'x' :: ds => registerDigits ds
  | 'X' :: ds => registerDigits ds
  | _ => none

/-- A letter or underscore. -/
def isLabelStart (c : Char) : Bool := c.isAlpha || c == '_'

/-- A label: `[A-Za-z_][A-Za-z0-9_]*` that is no register name (R191). -/
def labelName (t : Text) : Option Text :=
  match t with
  | [] => none
  | c :: cs =>
    if isLabelStart c && cs.all (fun d => isLabelStart d || d.isDigit) && (registerName (c :: cs)).isNone
    then some (c :: cs) else none

/-- The characters in lower case: mnemonics are case-insensitive (R191). -/
def lowerText (t : Text) : Text := t.map Char.toLower

/-- The instruction a mnemonic names. -/
def mnemonicNamed (t : Text) : Option Mnemonic :=
  Mnemonic.all.find? fun m => (mnemonicText m).toList == lowerText t

/-- Whether a word is the given keyword, in any case. -/
def isKeyword (k : String) (t : Text) : Bool := lowerText t == k.toList

/-! ### Line shapes (R192, R193) -/

/-- An accepted line. `jal` and `li` with a label, and the branches, are kept for pass 2 (R196). -/
inductive Line where
  | blank
  | label (name : Text)
  | data (v : Int) (count : Nat)
  | op (r : Request)
  | loadImm (rd : Reg) (imm : Int)
  | branchTo (m : Mnemonic) (rs1 rs2 : Reg) (name : Text)
  | jumpTo (rd : Reg) (name : Text)
  | loadLabel (rd : Reg) (name : Text)
  deriving DecidableEq, Repr

/-- Shape 1: `m rd, rs1, rs2`. -/
def shapeRegRegReg (ts : List Token) : Option Line := do
  match ts with
  | [.word h, .word a, .punct p, .word b, .punct q, .word c] =>
    let m ← mnemonicNamed h
    if p == ',' && q == ',' && m.format == .R then
      return .op { mnemonic := m, rd := ← registerName a, rs1 := ← registerName b, rs2 := ← registerName c }
    else none
  | _ => none

/-- Shape 2: `m rd, rs1, imm`, the 15 immediate forms, `lw` and `jalr`. -/
def shapeRegRegImm (ts : List Token) : Option Line := do
  match ts with
  | [.word h, .word a, .punct p, .word b, .punct q, .word c] =>
    let m ← mnemonicNamed h
    if p == ',' && q == ',' && (m.format == .I || m.format == .Ish) then
      return .op { mnemonic := m, rd := ← registerName a, rs1 := ← registerName b, imm := ← immediateText c }
    else none
  | _ => none

/-- Shape 3: `sw rs2, imm(rs1)`. -/
def shapeRegImmReg (ts : List Token) : Option Line := do
  match ts with
  | [.word h, .word a, .punct p, .word i, .punct l, .word b, .punct r] =>
    let m ← mnemonicNamed h
    if p == ',' && l == '(' && r == ')' && m.format == .S then
      return .op { mnemonic := m, rs2 := ← registerName a, rs1 := ← registerName b, imm := ← immediateText i }
    else none
  | _ => none

/-- Shape 4: `m rd, imm`, for `lui`, `jal` (the slot offset) and `li`. -/
def shapeRegImm (ts : List Token) : Option Line := do
  match ts with
  | [.word h, .word a, .punct p, .word i] =>
    let rd ← registerName a
    let imm ← immediateText i
    if p != ',' then none
    else if isKeyword "li" h then return .loadImm rd imm
    else
      let m ← mnemonicNamed h
      if m.format == .U || m.format == .Uj then
        return .op { mnemonic := m, rd := rd, imm := imm }
      else none
  | _ => none

/-- Shape 5: `m rs1, rs2, label`. -/
def shapeRegRegLabel (ts : List Token) : Option Line := do
  match ts with
  | [.word h, .word a, .punct p, .word b, .punct q, .word l] =>
    let m ← mnemonicNamed h
    if p == ',' && q == ',' && m.format == .B then
      return .branchTo m (← registerName a) (← registerName b) (← labelName l)
    else none
  | _ => none

/-- Shape 6: `m rd, label`, for `jal` and `li`. -/
def shapeRegLabel (ts : List Token) : Option Line := do
  match ts with
  | [.word h, .word a, .punct p, .word l] =>
    let rd ← registerName a
    let name ← labelName l
    if p != ',' then none
    else if isKeyword "li" h then return .loadLabel rd name
    else
      let m ← mnemonicNamed h
      if m.format == .Uj then return .jumpTo rd name else none
  | _ => none

/-- Shape 7: `m`, for `ebreak`. -/
def shapeNoOperand (ts : List Token) : Option Line := do
  match ts with
  | [.word h] =>
    let m ← mnemonicNamed h
    if m.format == .Ehalt then return .op { mnemonic := m } else none
  | _ => none

/-- Shape 8: `m r`, for `eread` and `ewrite`. -/
def shapeOneRegister (ts : List Token) : Option Line := do
  match ts with
  | [.word h, .word a] =>
    let m ← mnemonicNamed h
    let r ← registerName a
    match m.format with
    | .Eread => return .op { mnemonic := m, rd := r }
    | .Ewrite => return .op { mnemonic := m, rs1 := r }
    | .R | .I | .Ish | .S | .B | .U | .Uj | .Ehalt => none
  | _ => none

/-- Shape 9: `data V * N` (R200). -/
def shapeData (ts : List Token) : Option Line := do
  match ts with
  | [.word h, .word v, .punct p, .word n] =>
    if isKeyword "data" h && p == '*' then return .data (← immediateText v) (← decimalNat n) else none
  | _ => none

/-- Shape 10: `label:`. -/
def shapeLabel (ts : List Token) : Option Line := do
  match ts with
  | [.word l, .punct p] => if p == ':' then return .label (← labelName l) else none
  | _ => none

/-- Shape 11: nothing but blanks or a comment. -/
def shapeBlank (ts : List Token) : Option Line :=
  match ts with
  | [] => some .blank
  | _ :: _ => none

/-- The first shape that accepts the line (R193); none is a hard error. -/
def parseLine (ts : List Token) : Option Line :=
  [shapeRegRegReg, shapeRegRegImm, shapeRegImmReg, shapeRegImm, shapeRegRegLabel, shapeRegLabel, shapeNoOperand,
   shapeOneRegister, shapeData, shapeLabel, shapeBlank].findSome? fun shape => shape ts

/-! ### Errors and expansions -/

/-- The error kinds of R205. -/
inductive ErrorKind where
  /-- no shape accepts the line (R193) -/
  | badLine
  /-- an operand out of its range, never truncated (R201); none where the operand is that of `li` or `data` -/
  | encodingImpossible (field : Option OperandField)
  /-- a label declared twice, at its second declaration (R195) -/
  | duplicateLabel
  /-- "unknown label" (R202, R203) -/
  | unknownLabel
  /-- more slots than MEM_WORDS (R207) -/
  | programTooLong
  deriving DecidableEq, Repr

/-- An assembly error with the 0-based number of its line (R190). Its text is out of scope (00_scope.md R4; log entry
14). -/
structure AssemblyError where
  lineNumber : Nat
  kind : ErrorKind
  deriving DecidableEq, Repr

/-- The low part of a constant: its low 12 bits, sign-extended (R198). -/
def lowPart (v : Word) : Int := sext 12 (field v 0 12)

/-- The high part of a constant, in upper-immediate units (R198). -/
def highPart (v : Word) : Nat := ((sint v - lowPart v) / 2 ^ 12 % 2 ^ 20).toNat

/-- `li rd, imm` with `v = wrap(imm)`: one or two instructions (R198). -/
def liExpansion (rd : Reg) (v : Word) : List Instr :=
  if -2048 ≤ sint v ∧ sint v ≤ 2047 then [.addi rd 0 (sint v)]
  else if lowPart v = 0 then [.lui rd (highPart v)]
  else [.lui rd (highPart v), .addi rd rd (lowPart v)]

/-- `li rd, label` with `v` the label's slot: always two instructions (R199). -/
def liLabelExpansion (rd : Reg) (v : Word) : List Instr := [.lui rd (highPart v), .addi rd rd (lowPart v)]

/-- The words of some instructions under an OPCODE_MAP, or the first range error. -/
def encodeAll (map : OpcodeMap) (is : List Instr) : Except EncodeError (List Word) :=
  match is with
  | [] => .ok []
  | i :: rest =>
    match encodeWith map i with
    | .error e => .error e
    | .ok w =>
      match encodeAll map rest with
      | .error e => .error e
      | .ok ws => .ok (w :: ws)

/-- The range of the operands of `li` and `data` (R198, R200). -/
def fitsWord (n : Int) : Bool := decide (-2 ^ 31 ≤ n) && decide (n ≤ 2 ^ 32 - 1)

/-- The offset that reaches a label's slot from an instruction's slot (R204). -/
def labelOffset (labelSlot patchSlot : Nat) : Int := (labelSlot : Int) - (patchSlot : Int) - 1

/-! ### Pass 1 (R194-R200) -/

/-- What a pending patch is to become (R196). -/
inductive PatchKind where
  | branch (m : Mnemonic) (rs1 rs2 : Reg)
  | jump (rd : Reg)
  | loadImmediate (rd : Reg)
  deriving DecidableEq, Repr

/-- A pending patch (R196), with the line for the error list. -/
structure Patch where
  lineNumber : Nat
  slot : Nat
  kind : PatchKind
  label : Text
  deriving DecidableEq, Repr

/-- What a line of the program puts into its slots. -/
inductive Item where
  | words (ws : List Word)
  | data (v : Word) (count : Nat)
  | patch (p : Patch)
  deriving DecidableEq, Repr

/-- The slots an item takes (R194). -/
def itemSlots (i : Item) : Nat :=
  match i with
  | .words ws => ws.length
  | .data _ n => n
  | .patch p =>
    match p.kind with
    | .branch .. => 1
    | .jump _ => 1
    | .loadImmediate _ => 2

/-- The state of pass 1: the next slot, the label table, the items and errors so far (both in order), and whether the
program has passed the end of memory. -/
structure Pass1 where
  slot : Nat
  labels : List (Text × Nat)
  items : List Item
  errors : List AssemblyError
  overflow : Bool
  deriving DecidableEq, Repr

/-- A line with an error takes no slot (R194). -/
def noteError (p : Pass1) (n : Nat) (k : ErrorKind) : Pass1 := { p with errors := p.errors ++ [⟨n, k⟩] }

/-- The next slots given to an item (R194). The first line whose slots pass the end of memory gets R207's error, in its
place among the errors of pass 1 (R205; log entry 13). -/
def emitItem (memWords : Nat) (p : Pass1) (n : Nat) (i : Item) : Pass1 :=
  let past := decide (memWords < p.slot + itemSlots i)
  { p with
    slot := p.slot + itemSlots i
    items := p.items ++ [i]
    errors := if past && !p.overflow then p.errors ++ [⟨n, .programTooLong⟩] else p.errors
    overflow := p.overflow || past }

/-- The slot a label is bound to. -/
def lookupLabel (labels : List (Text × Nat)) (name : Text) : Option Nat :=
  (labels.find? fun l => l.1 == name).map Prod.snd

/-- Pass 1 on one line, `n` being its 0-based number. A label declared twice keeps its first slot for pass 2: the spec
makes the second declaration an error and does not say what the label then resolves to, DESIGN CHOICE (log entry 21). -/
def pass1Line (map : OpcodeMap) (memWords : Nat) (p : Pass1) (n : Nat) (line : Text) : Pass1 :=
  match parseLine (lineTokens line) with
  | none => noteError p n .badLine
  | some .blank => p
  | some (.label name) =>
    if (lookupLabel p.labels name).isSome then noteError p n .duplicateLabel
    else { p with labels := p.labels ++ [(name, p.slot)] }
  | some (.data v count) =>
    if fitsWord v then emitItem memWords p n (.data (wrap v) count) else noteError p n (.encodingImpossible none)
  | some (.op r) =>
    match encodeRequestWith map r with
    | .ok w => emitItem memWords p n (.words [w])
    | .error e => noteError p n (.encodingImpossible (some e.field))
  | some (.loadImm rd imm) =>
    if fitsWord imm then
      match encodeAll map (liExpansion rd (wrap imm)) with
      | .ok ws => emitItem memWords p n (.words ws)
      | .error e => noteError p n (.encodingImpossible (some e.field))
    else noteError p n (.encodingImpossible none)
  | some (.branchTo m rs1 rs2 name) => emitItem memWords p n (.patch ⟨n, p.slot, .branch m rs1 rs2, name⟩)
  | some (.jumpTo rd name) => emitItem memWords p n (.patch ⟨n, p.slot, .jump rd, name⟩)
  | some (.loadLabel rd name) => emitItem memWords p n (.patch ⟨n, p.slot, .loadImmediate rd, name⟩)

/-- Pass 1 on the lines from number `n` on. -/
def pass1From (map : OpcodeMap) (memWords : Nat) (p : Pass1) (n : Nat) (lines : List Text) : Pass1 :=
  match lines with
  | [] => p
  | l :: rest => pass1From map memWords (pass1Line map memWords p n l) (n + 1) rest

/-! ### Pass 2 (R202-R204) -/

/-- The instructions a patch becomes once its label's slot is known (R199, R204). -/
def patchInstrs (p : Patch) (labelSlot : Nat) : List Instr :=
  match p.kind with
  | .branch m rs1 rs2 => [m.build { rs1 := rs1, rs2 := rs2, imm := labelOffset labelSlot p.slot }]
  | .jump rd => [.jal rd (labelOffset labelSlot p.slot)]
  | .loadImmediate rd => liLabelExpansion rd (BitVec.ofNat 32 labelSlot)

/-- The words of an item, or the error of its patch. -/
def itemWords (map : OpcodeMap) (labels : List (Text × Nat)) (i : Item) : Except AssemblyError (List Word) :=
  match i with
  | .words ws => .ok ws
  | .data v n => .ok (List.replicate n v)
  | .patch p =>
    match lookupLabel labels p.label with
    | none => .error ⟨p.lineNumber, .unknownLabel⟩
    | some t =>
      match encodeAll map (patchInstrs p t) with
      | .ok ws => .ok ws
      | .error e => .error ⟨p.lineNumber, .encodingImpossible (some e.field)⟩

/-- Every item resolved in slot order: the words, and the errors in patch order, none left out (R203, R205). -/
def pass2 (map : OpcodeMap) (labels : List (Text × Nat)) (items : List Item) : List Word × List AssemblyError :=
  match items with
  | [] => ([], [])
  | i :: rest =>
    match itemWords map labels i with
    | .ok ws => (ws ++ (pass2 map labels rest).1, (pass2 map labels rest).2)
    | .error e => ((pass2 map labels rest).1, e :: (pass2 map labels rest).2)

/-- `MachineImage` of R190: the encoded memory contents from slot 0 on, and the label table. -/
structure MachineImage where
  words : List Word
  labels : List (Text × Nat)
  deriving DecidableEq, Repr

/-- The assembler (R190): an image, or every error found, pass 1's in line order, then pass 2's in patch order (R205,
R206). -/
def assemble (map : OpcodeMap) (memWords : Nat) (source : String) : Except (List AssemblyError) MachineImage :=
  let p := pass1From map memWords ⟨0, [], [], [], false⟩ 0 (splitLines [] source.toList)
  let q := pass2 map p.labels p.items
  match p.errors ++ q.2 with
  | [] => .ok ⟨q.1, p.labels⟩
  | e :: es => .error (e :: es)

end Sys2Proof.Machine
end

