-- ==== Sys2Proof/Machine/Host.lean ====
section
/-! DEFINITION. The host's operations on a machine, which act between steps: reset, load, step with its outcome, run, halt
request, and the observations (00_scope.md R13; 60_exceptions.md; 70_reset_and_hazards.md). -/

namespace Sys2Proof.Machine

/-- The machine status (10_state.md R29). -/
inductive Status where
  | ready | running | halted
  deriving DecidableEq, Repr

/-- The status as the function of the state that R29 gives. -/
def status (s : State) : Status := if s.halted then .halted else if s.started then .running else .ready

/-- The code of a trap cause (60_exceptions.md R223). -/
def causeCode (c : TrapCause) : Nat :=
  match c with
  | .fetchOutOfRange => 1
  | .loadOutOfRange => 2
  | .storeOutOfRange => 3
  | .divideByZero => 4

/-- `StepOutcome` (60_exceptions.md R220). -/
inductive StepOutcome where
  | continued
  | halted
  | trapped (cause : TrapCause)
  deriving DecidableEq, Repr

/-- `RunOutcome` (42_control_transfer.md R164). -/
inductive RunOutcome where
  | halted
  | trapped (cause : TrapCause)
  | limitReached
  deriving DecidableEq, Repr

/-- The outcome of the next step (42_control_transfer.md R160; 60_exceptions.md R220). It is read off a step from the
state with no trap recorded, so that a record already there is not taken for this step's. The last arm is never taken:
a statement says that every step answers a next state. -/
def stepOutcome (s : State) : StepOutcome :=
  if s.halted then .halted
  else
    match step { s with trap := none } with
    | .next t =>
      if t.halted then
        match t.trap with
        | some r => .trapped r.cause
        | none => .halted
      else .continued
    | .fault _ | .refused _ => .halted

/-- The host's `step` : the next state and the outcome (42_control_transfer.md R160). -/
def hostStep (s : State) : State × StepOutcome :=
  match step s with
  | .next t => (t, stepOutcome s)
  | .fault _ | .refused _ => (s, stepOutcome s)

/-- The host's `run` with a step limit (42_control_transfer.md R164). -/
def run (s : State) (limit : Nat) : State × RunOutcome :=
  match limit with
  | 0 => (s, .limitReached)
  | n + 1 =>
    match hostStep s with
    | (t, .continued) => run t n
    | (t, .halted) => (t, .halted)
    | (t, .trapped c) => (t, .trapped c)

/-- The host's halt request, between steps: nothing else changes (60_exceptions.md R226). -/
def haltRequest (s : State) : State := { s with halted := true }

/-- The host's `reset`: every field of 10_state.md R36 at its reset value, the run's parameters kept
(70_reset_and_hazards.md R240). -/
def hostReset (s : State) : State := { State.reset with params := s.params }

/-- The host supplies the input stream, at load or before the first step (70_reset_and_hazards.md R241). -/
def supplyInput (s : State) (input : List Word) : State := { s with params := { s.params with input := input } }

/-- The host's `load`: reset, assemble, and on success write the image; the errors otherwise (70_reset_and_hazards.md
R241, R242). -/
def load (s : State) (source : String) : State × List AssemblyError :=
  match assemble s.params.opcodeMap s.params.memWords source with
  | .ok image => ({ hostReset s with mem := Memory.writeImage [] 0 image.words }, [])
  | .error es => (hostReset s, es)

end Sys2Proof.Machine
end

