-- ==== Sys2Proof/Safety.lean ====
section
/-! DEFINITION. The terms that claims about the machine use: what an instruction leaves alone, what a trapped step leaves,
and the invariant of a machine. -/

namespace Sys2Proof.Machine

/-- Every register reads as before. -/
def SameRegs (s t : State) : Prop := ∀ r : Reg, t.readReg r = s.readReg r

/-- Every cell reads as before. -/
def SameMemory (s t : State) : Prop := ∀ a : Nat, t.mem.read a = s.mem.read a

/-- Neither stream moved. -/
def SameStreams (s t : State) : Prop := t.cursor = s.cursor ∧ t.out = s.out

/-- The machine goes on as it was: only `started` is set among the control fields of 10_state.md R33. -/
def SameControl (s t : State) : Prop :=
  t.started = true ∧ t.halted = s.halted ∧ t.trap = s.trap ∧ t.params = s.params

/-- `v` is in `rd` unless `rd` is x0, and no other register changed (10_state.md R21, R22). -/
def WritesReg (s t : State) (rd : Reg) (v : Word) : Prop :=
  ∀ r : Reg, t.readReg r = if r = rd ∧ r ≠ 0 then v else s.readReg r

/-- The whole effect of an instruction that only writes `v` to `rd`, the pc advanced by one slot. -/
def OnlyWritesReg (s t : State) (rd : Reg) (v : Word) : Prop :=
  WritesReg s t rd v ∧ t.pc = s.pc + 1 ∧ SameMemory s t ∧ SameStreams s t ∧ SameControl s t

/-- The whole effect of an instruction that only moves the pc. -/
def OnlySetsPc (s t : State) (target : Word) : Prop :=
  t.pc = target ∧ SameRegs s t ∧ SameMemory s t ∧ SameStreams s t ∧ SameControl s t

/-- `t` is `s` after a step that trapped: exactly `halted`, the trap record and `started` are set (60_exceptions.md
R224). -/
def TrappedFrom (s t : State) (cause : TrapCause) (value : Word) : Prop :=
  t.halted = true ∧ t.trap = some ⟨cause, value⟩ ∧ t.started = true ∧
  t.x = s.x ∧ t.pc = s.pc ∧ t.mem = s.mem ∧ t.cursor = s.cursor ∧ t.out = s.out ∧ t.params = s.params

/-- The invariant of a machine: memory in canonical form and inside MEM_WORDS (20_memory.md R40), cell 0 of the register
file 0 (10_state.md R21), the cursor inside the input (R30), and a trap record only on a halted machine that has run
(R28). -/
abbrev State.Inv (s : State) : Prop :=
  Memory.wf s.mem = true ∧ Memory.within s.mem s.params.memWords = true ∧ s.x[0] = 0 ∧
  s.cursor ≤ s.params.input.length ∧ (s.trap.isSome = true → s.halted = true ∧ s.started = true)

/-- Two states that agree in everything but register `r` (10_state.md R23 names the registers an instruction reads). -/
def AgreeExcept (r : Reg) (s t : State) : Prop :=
  (∀ q : Reg, q ≠ r → t.readReg q = s.readReg q) ∧ t.pc = s.pc ∧ t.mem = s.mem ∧ SameStreams s t ∧
  t.started = s.started ∧ t.halted = s.halted ∧ t.trap = s.trap ∧ t.params = s.params

/-- The registers an instruction reads (10_state.md R23). -/
def sourceRegs (i : Instr) : List Reg :=
  match i.mnemonic.format with
  | .R | .S | .B => [i.operands.rs1, i.operands.rs2]
  | .I | .Ish | .Ewrite => [i.operands.rs1]
  | .U | .Uj | .Ehalt | .Eread => []

/-- The register an instruction writes, if it writes one (10_state.md R23). -/
def destReg (i : Instr) : Option Reg :=
  match i.mnemonic.format with
  | .R | .I | .Ish | .U | .Uj | .Eread => some i.operands.rd
  | .S | .B | .Ehalt | .Ewrite => none

/-- The instructions that set the pc themselves (42_control_transfer.md R165-R172). -/
def transfersControl (i : Instr) : Bool :=
  match i.mnemonic.format with
  | .B | .Uj => true
  | .I => i.mnemonic == .jalr
  | .R | .Ish | .S | .U | .Ehalt | .Eread | .Ewrite => false

/-- Why a step from a machine that is not halted traps, and with which value: the table of 60_exceptions.md R223. -/
def TrapReason (s : State) (c : TrapCause) (v : Word) : Prop :=
  match c with
  | .fetchOutOfRange => s.params.memWords ≤ uint s.pc ∧ v = s.pc
  | .loadOutOfRange =>
    ∃ rd rs1 imm, fetch s = .instr (.lw rd rs1 imm) ∧ v = effectiveAddress s rs1 imm ∧ s.params.memWords ≤ uint v
  | .storeOutOfRange =>
    ∃ rs2 rs1 imm, fetch s = .instr (.sw rs2 rs1 imm) ∧ v = effectiveAddress s rs1 imm ∧ s.params.memWords ≤ uint v
  | .divideByZero =>
    s.params.divZeroPolicy = .trap ∧ v = s.pc ∧
      ((∃ rd rs1 rs2, (fetch s = .instr (.div rd rs1 rs2) ∨ fetch s = .instr (.rem rd rs1 rs2)) ∧ s.readReg rs2 = 0) ∨
        ∃ rd rs1, fetch s = .instr (.divi rd rs1 0) ∨ fetch s = .instr (.remi rd rs1 0))

/-- Some steps of the machine in a row. -/
def stepTimes (n : Nat) (s : State) : Host.Outcome State Fault Refusal := Sys2Proof.core.run n s

end Sys2Proof.Machine
end

