-- ==== Sys2Proof/Certificates/Slice0/Obligations.lean ====
section
/-! DEFINITION. The statements about the model, for the provers. Each docstring names the rules of spec/ it rests on. -/

open Sys2Proof Sys2Proof.Machine

/-! ### Codec, encoder, decoder -/

/-- 00_scope.md R8: the formula of `sext`, its range, that it changes the value by a multiple of 2^n only, and that 32 bits
give the signed reading. -/
def Obligations.SextIsTwosComplementReading : Prop :=
  ∀ (n : Nat) (v : Int), 1 ≤ n → n ≤ 32 →
    sext n v = (v % 2 ^ n + 2 ^ (n - 1)) % 2 ^ n - 2 ^ (n - 1) ∧
    -2 ^ (n - 1) ≤ sext n v ∧ sext n v ≤ 2 ^ (n - 1) - 1 ∧ (sext n v - v) % 2 ^ n = 0 ∧
    ∀ x : Word, sext 32 (uint x) = sint x

/-- 00_scope.md R9: a field reads the bits of its range; after a `put` it reads the value modulo 2^width, and every field
disjoint from it reads as before. -/
def Obligations.FieldReadsBackWhatPutWrote : Prop :=
  ∀ (w : Word) (v : Int) (lo width lo' width' : Nat), lo + width ≤ 32 →
    field w lo width = uint w / 2 ^ lo % 2 ^ width ∧
    (field (put w lo width v) lo width : Int) = v % 2 ^ width ∧
    (lo' + width' ≤ lo ∨ lo + width ≤ lo' ∧ lo' + width' ≤ 32 →
      field (put w lo width v) lo' width' = field w lo' width')

/-- 30_encoding.md R85 under every OPCODE_MAP that 00_scope.md R5 allows: a word decodes to an instruction exactly when the
instruction encodes to it. What a table may vary is the model's choice (log entries 3 and 22, DESIGN CHOICE): every number of
a row, funct3 of format E included, and no format. -/
def Obligations.EveryValidMapDecodesExactlyWhatItEncodes : Prop :=
  ∀ map : OpcodeMap, map.Valid → ∀ (i : Instr) (w : Word), decodeWith map w = .ok i ↔ encodeWith map i = .ok w

/-- 30_encoding.md R84, R85 at the default map: decoding the encoding of a well-formed instruction gives it back, and a
word decodes to an instruction only if it is its encoding, the instruction then being well formed. -/
def Obligations.DecodeAndEncodeAreInverse : Prop :=
  ∀ i : Instr,
    (i.wellFormed = true → ∃ w, encode i = .ok w ∧ decode w = .ok i) ∧
    ∀ w : Word, decode w = .ok i → encode i = .ok w ∧ i.wellFormed = true

/-- What 30_encoding.md R73 asks of the immediate of a request, by the format of its row. -/
def ImmediateInRange (m : Mnemonic) (imm : Int) : Prop :=
  match m.format with
  | .I | .S | .B => -2048 ≤ imm ∧ imm ≤ 2047
  | .Ish => 0 ≤ imm ∧ imm ≤ 31
  | .U => 0 ≤ imm ∧ imm ≤ 1048575
  | .Uj => -524288 ≤ imm ∧ imm ≤ 524287
  | .R | .Ehalt | .Eread | .Ewrite => True

/-- The operand that an encoder error names is out of its range (30_encoding.md R73). -/
def FieldOutOfRange (r : Request) (f : OperandField) : Prop :=
  match f with
  | .rd => 31 < r.rd
  | .rs1 => 31 < r.rs1
  | .rs2 => 31 < r.rs2
  | .imm | .shamt | .off | .u20 => ¬ ImmediateInRange r.mnemonic r.imm

/-- 30_encoding.md R73's ranges: a request gets a word exactly when every operand is in the range of its field; else it gets
an error that names an operand that is not. That a register number above 31 is refused in an operand which the row does not
have too (`ebreak` with rd = 32) is the model's choice, log entry 18 (DESIGN CHOICE), and no part of R73. -/
def Obligations.EncoderRefusesExactlyOutOfRangeOperands : Prop :=
  ∀ r : Request,
    ((r.rd ≤ 31 ∧ r.rs1 ≤ 31 ∧ r.rs2 ≤ 31 ∧ ImmediateInRange r.mnemonic r.imm) ↔ ∃ w, encodeRequest r = .ok w) ∧
    ∀ f, encodeRequest r = .error ⟨f⟩ → FieldOutOfRange r f

/-- The bits of a register number are five bits of the word, from bit `lo` up (30_encoding.md R62). -/
def RegisterBits (w : Word) (lo : Nat) (r : Reg) : Prop :=
  ∀ k, k < 5 → r.val.testBit k = w.getLsbD (lo + k)

/-- Bit k of the unsigned `width`-bit number `n` is the word's bit `source k`. -/
def UnsignedBits (w : Word) (n width : Nat) (source : Nat → Nat) : Prop :=
  n < 2 ^ width ∧ ∀ k, k < width → n.testBit k = w.getLsbD (source k)

/-- Bit k of the two's-complement `width`-bit number `n` is the word's bit `source k`. -/
def SignedBits (w : Word) (n : Int) (width : Nat) (source : Nat → Nat) : Prop :=
  -2 ^ (width - 1) ≤ n ∧ n < 2 ^ (width - 1) ∧ ∀ k, k < width → (wrap n).getLsbD k = w.getLsbD (source k)

/-- Where each bit of a branch offset stands: 11 at 31, 10 at 7, 9..4 at 30..25, 3..0 at 11..8 (30_encoding.md R67). -/
def branchOffsetBit (k : Nat) : Nat :=
  if k = 11 then 31 else if k = 10 then 7 else if 4 ≤ k then k + 21 else k + 8

/-- Where each bit of a store's immediate stands: 11..5 at 31..25, 4..0 at 11..7 (30_encoding.md R66). -/
def storeImmediateBit (k : Nat) : Nat := if 5 ≤ k then k + 20 else k + 7

/-- Which bit of the word is which bit of each operand: the layouts of 30_encoding.md R64-R70, bit by bit. -/
def OperandBits (w : Word) (i : Instr) : Prop :=
  match i with
  | .add rd rs1 rs2 | .sub rd rs1 rs2 | .and rd rs1 rs2 | .or rd rs1 rs2 | .xor rd rs1 rs2 | .sll rd rs1 rs2
  | .srl rd rs1 rs2 | .sra rd rs1 rs2 | .slt rd rs1 rs2 | .seq rd rs1 rs2 | .sne rd rs1 rs2 | .sge rd rs1 rs2
  | .mul rd rs1 rs2 | .div rd rs1 rs2 | .rem rd rs1 rs2 =>
    RegisterBits w 7 rd ∧ RegisterBits w 15 rs1 ∧ RegisterBits w 20 rs2
  | .addi rd rs1 imm | .subi rd rs1 imm | .andi rd rs1 imm | .ori rd rs1 imm | .xori rd rs1 imm | .slti rd rs1 imm
  | .seqi rd rs1 imm | .snei rd rs1 imm | .sgei rd rs1 imm | .muli rd rs1 imm | .divi rd rs1 imm | .remi rd rs1 imm
  | .lw rd rs1 imm | .jalr rd rs1 imm =>
    RegisterBits w 7 rd ∧ RegisterBits w 15 rs1 ∧ SignedBits w imm 12 fun k => k + 20
  | .slli rd rs1 shamt | .srli rd rs1 shamt | .srai rd rs1 shamt =>
    RegisterBits w 7 rd ∧ RegisterBits w 15 rs1 ∧ UnsignedBits w shamt.val 5 fun k => k + 20
  | .lui rd u20 => RegisterBits w 7 rd ∧ UnsignedBits w u20 20 fun k => k + 12
  | .jal rd off => RegisterBits w 7 rd ∧ SignedBits w off 20 fun k => k + 12
  | .sw rs2 rs1 imm => RegisterBits w 15 rs1 ∧ RegisterBits w 20 rs2 ∧ SignedBits w imm 12 storeImmediateBit
  | .beq rs1 rs2 off | .bne rs1 rs2 off | .blt rs1 rs2 off | .bge rs1 rs2 off =>
    RegisterBits w 15 rs1 ∧ RegisterBits w 20 rs2 ∧ SignedBits w off 12 branchOffsetBit
  | .ebreak => True
  | .eread rd => RegisterBits w 7 rd
  | .ewrite rs1 => RegisterBits w 15 rs1

/-- 30_encoding.md R75-R83 with the layouts of R64-R70: on every word the default decoder is the demultiplexer that the
handler tables describe; and under every OPCODE_MAP each operand of a decoded instruction is made of the bits of the word that
the layout of its format names. -/
def Obligations.TableDecoderAgreesWithHandlerTables : Prop :=
  (∀ w : Word,
    classify opcodeMap w = handlerTop w ∧
    (decode w).toOption = (handlerTop w).map fun m => m.build (unpack m.format w)) ∧
  ∀ (map : OpcodeMap) (w : Word) (i : Instr), decodeWith map w = .ok i → OperandBits w i

/-- 30_encoding.md R89: a word encodes a row's instruction exactly when `w AND mask = match`, under every OPCODE_MAP.
That funct3 of a format E row follows the map is the model's choice (log entry 22, DESIGN CHOICE). -/
def Obligations.RowsAcceptByMaskAndMatch : Prop :=
  ∀ (map : OpcodeMap) (m : Mnemonic) (w : Word),
    map.accepts m w = true ↔ w &&& m.format.mask = map.matchWord m

/-- 30_encoding.md R83: a word whose opcode is not one of the ten is Invalid; so are the three words it names, and every
word whose low seven bits are 0. -/
def Obligations.UnassignedOpcodesAreInvalid : Prop :=
  (∀ w : Word, field w 0 7 ∉ [0x33, 0x13, 0x0B, 0x03, 0x23, 0x63, 0x67, 0x6F, 0x37, 0x73] →
    ∃ why, decode w = .error why) ∧
  (∃ why, decode 0x00000000 = .error why) ∧ (∃ why, decode 0xFFFFFFFF = .error why) ∧
  ∀ w : Word, field w 0 7 = 0 → ∃ why, decode w = .error why

/-- 95_test_vectors.md 2.1: some of the spec's words, one of each format, decode to the instruction beside them. -/
def Obligations.SpecWordsDecode : Prop :=
  decode 0x402081B3 = .ok (.sub 3 1 2) ∧ decode 0xFFF08193 = .ok (.addi 3 1 (-1)) ∧
  decode 0x4040D193 = .ok (.srai 3 1 4) ∧ decode 0xFFF0D18B = .ok (.divi 3 1 (-1)) ∧
  decode 0x123451B7 = .ok (.lui 3 74565) ∧ decode 0xFFF0A183 = .ok (.lw 3 1 (-1)) ∧
  decode 0xFE20AFA3 = .ok (.sw 2 1 (-1)) ∧ decode 0xFE20CEE3 = .ok (.blt 1 2 (-2)) ∧
  decode 0xFFFFF0EF = .ok (.jal 1 (-1)) ∧ decode 0x003100E7 = .ok (.jalr 1 2 3) ∧
  decode 0x00000073 = .ok .ebreak ∧ decode 0x020002F3 = .ok (.eread 5) ∧ decode 0x04028073 = .ok (.ewrite 5)

/-! ### The ALU -/

/-- 40_integer_computational.md R101-R105 (and MUL of R113 with both readings of the operands): wrapped integer
arithmetic and bitwise logic, under either policy. -/
def Obligations.AluArithmeticAndLogic : Prop :=
  ∀ (p : DivZeroPolicy) (a b : Word),
    alu p .add a b = .value (wrap (sint a + sint b)) ∧
    alu p .sub a b = .value (wrap (sint a - sint b)) ∧
    alu p .mul a b = .value (wrap (sint a * sint b)) ∧ wrap (sint a * sint b) = wrap ((uint a : Int) * uint b) ∧
    (∃ v, alu p .and a b = .value v ∧ ∀ k, v.getLsbD k = (a.getLsbD k && b.getLsbD k)) ∧
    (∃ v, alu p .or a b = .value v ∧ ∀ k, v.getLsbD k = (a.getLsbD k || b.getLsbD k)) ∧
    ∃ v, alu p .xor a b = .value v ∧ ∀ k, v.getLsbD k = (a.getLsbD k != b.getLsbD k)

/-- 40_integer_computational.md R106-R108: shifts by the low five bits, as multiplication, division and floor division by
a power of two. -/
def Obligations.AluShiftsByLowFiveBits : Prop :=
  ∀ (p : DivZeroPolicy) (a b : Word),
    alu p .sll a b = .value (wrap ((uint a : Int) * 2 ^ (uint b % 32))) ∧
    (∃ v, alu p .srl a b = .value v ∧ uint v = uint a / 2 ^ (uint b % 32)) ∧
    alu p .sra a b = .value (wrap (Int.fdiv (sint a) (2 ^ (uint b % 32))))

/-- 40_integer_computational.md R109-R112: signed comparisons and equality as 1 or 0, SGE being 1 minus SLT. -/
def Obligations.AluComparisonsGiveOneOrZero : Prop :=
  ∀ (p : DivZeroPolicy) (a b : Word),
    alu p .slt a b = .value (if sint a < sint b then 1 else 0) ∧
    alu p .seq a b = .value (if a = b then 1 else 0) ∧
    alu p .sne a b = .value (if a ≠ b then 1 else 0) ∧
    alu p .sge a b = .value (if sint a ≥ sint b then 1 else 0) ∧
    ∃ lt ge, alu p .slt a b = .value lt ∧ alu p .sge a b = .value ge ∧ ge = 1 - lt

/-- 40_integer_computational.md R114, R115: for a divisor that is not 0, the quotient rounded toward zero and wrapped, its
remainder, the remainder's sign and size, and the overflow case. -/
def Obligations.AluDivisionTruncates : Prop :=
  ∀ (p : DivZeroPolicy) (a b : Word), b ≠ 0 →
    alu p .div a b = .value (wrap ((sint a).sign * (sint b).sign * ((sint a).natAbs / (sint b).natAbs : Nat))) ∧
    (∃ r, alu p .rem a b = .value r ∧
      r = wrap (sint a - sint b * ((sint a).sign * (sint b).sign * ((sint a).natAbs / (sint b).natAbs : Nat))) ∧
      (sint r = 0 ∨ (sint r).sign = (sint a).sign) ∧ (sint r).natAbs < (sint b).natAbs) ∧
    alu p .div 0x80000000 0xFFFFFFFF = .value 0x80000000 ∧ alu p .rem 0x80000000 0xFFFFFFFF = .value 0

/-- 40_integer_computational.md R116: a zero divisor under `trap`, the default, faults in the ALU and the instruction raises
DivideByZero(here) with no other effect; under `zero` the result is 0 and execution goes on. -/
def Obligations.DivisionByZeroFollowsPolicy : Prop :=
  State.reset.params.divZeroPolicy = .trap ∧
  (∀ a : Word, alu .trap .div a 0 = .divideByZero ∧ alu .trap .rem a 0 = .divideByZero ∧
    alu .zero .div a 0 = .value 0 ∧ alu .zero .rem a 0 = .value 0) ∧
  ∀ (s : State) (rd rs1 rs2 : Reg),
    (s.params.divZeroPolicy = .trap → s.readReg rs2 = 0 → ∀ i ∈ [Instr.div rd rs1 rs2, .rem rd rs1 rs2],
      ∃ t, exec i s = .next t ∧ TrappedFrom s t .divideByZero s.pc) ∧
    (s.params.divZeroPolicy = .trap → ∀ i ∈ [Instr.divi rd rs1 0, .remi rd rs1 0],
      ∃ t, exec i s = .next t ∧ TrappedFrom s t .divideByZero s.pc) ∧
    (s.params.divZeroPolicy = .zero → s.readReg rs2 = 0 → ∀ i ∈ [Instr.div rd rs1 rs2, .rem rd rs1 rs2],
      ∃ t, exec i s = .next t ∧ OnlyWritesReg s t rd 0) ∧
    (s.params.divZeroPolicy = .zero → ∀ i ∈ [Instr.divi rd rs1 0, .remi rd rs1 0],
      ∃ t, exec i s = .next t ∧ OnlyWritesReg s t rd 0)

/-! ### Register-register instructions: each completes, with its result and frame -/

/-- `add`, `sub`, `mul` (40_integer_computational.md R118, R119, R130). -/
def Obligations.AddSubMulRegisterResult : Prop :=
  ∀ (s : State) (rd rs1 rs2 : Reg),
    (∃ t, exec (.add rd rs1 rs2) s = .next t ∧
      OnlyWritesReg s t rd (wrap (sint (s.readReg rs1) + sint (s.readReg rs2)))) ∧
    (∃ t, exec (.sub rd rs1 rs2) s = .next t ∧
      OnlyWritesReg s t rd (wrap (sint (s.readReg rs1) - sint (s.readReg rs2)))) ∧
    ∃ t, exec (.mul rd rs1 rs2) s = .next t ∧
      OnlyWritesReg s t rd (wrap (sint (s.readReg rs1) * sint (s.readReg rs2)))

/-- `and`, `or`, `xor` bit by bit (40_integer_computational.md R120, R121, R122). -/
def Obligations.LogicRegisterResult : Prop :=
  ∀ (s : State) (rd rs1 rs2 : Reg),
    (∃ t v, exec (.and rd rs1 rs2) s = .next t ∧ OnlyWritesReg s t rd v ∧
      ∀ k, v.getLsbD k = ((s.readReg rs1).getLsbD k && (s.readReg rs2).getLsbD k)) ∧
    (∃ t v, exec (.or rd rs1 rs2) s = .next t ∧ OnlyWritesReg s t rd v ∧
      ∀ k, v.getLsbD k = ((s.readReg rs1).getLsbD k || (s.readReg rs2).getLsbD k)) ∧
    ∃ t v, exec (.xor rd rs1 rs2) s = .next t ∧ OnlyWritesReg s t rd v ∧
      ∀ k, v.getLsbD k = ((s.readReg rs1).getLsbD k != (s.readReg rs2).getLsbD k)

/-- `sll`, `srl`, `sra` (40_integer_computational.md R123, R124, R125). -/
def Obligations.ShiftRegisterResult : Prop :=
  ∀ (s : State) (rd rs1 rs2 : Reg),
    (∃ t, exec (.sll rd rs1 rs2) s = .next t ∧
      OnlyWritesReg s t rd (wrap ((uint (s.readReg rs1) : Int) * 2 ^ (uint (s.readReg rs2) % 32)))) ∧
    (∃ t v, exec (.srl rd rs1 rs2) s = .next t ∧ OnlyWritesReg s t rd v ∧
      uint v = uint (s.readReg rs1) / 2 ^ (uint (s.readReg rs2) % 32)) ∧
    ∃ t, exec (.sra rd rs1 rs2) s = .next t ∧
      OnlyWritesReg s t rd (wrap (Int.fdiv (sint (s.readReg rs1)) (2 ^ (uint (s.readReg rs2) % 32))))

/-- `slt`, `seq`, `sne`, `sge` (40_integer_computational.md R126-R129). -/
def Obligations.CompareRegisterResult : Prop :=
  ∀ (s : State) (rd rs1 rs2 : Reg),
    (∃ t, exec (.slt rd rs1 rs2) s = .next t ∧
      OnlyWritesReg s t rd (if sint (s.readReg rs1) < sint (s.readReg rs2) then 1 else 0)) ∧
    (∃ t, exec (.seq rd rs1 rs2) s = .next t ∧
      OnlyWritesReg s t rd (if s.readReg rs1 = s.readReg rs2 then 1 else 0)) ∧
    (∃ t, exec (.sne rd rs1 rs2) s = .next t ∧
      OnlyWritesReg s t rd (if s.readReg rs1 ≠ s.readReg rs2 then 1 else 0)) ∧
    ∃ t, exec (.sge rd rs1 rs2) s = .next t ∧
      OnlyWritesReg s t rd (if sint (s.readReg rs1) ≥ sint (s.readReg rs2) then 1 else 0)

/-- `div`, `rem` with a divisor that is not 0 (40_integer_computational.md R131, R132); a zero divisor is
DivisionByZeroFollowsPolicy's. -/
def Obligations.DivideRegisterResult : Prop :=
  ∀ (s : State) (rd rs1 rs2 : Reg), s.readReg rs2 ≠ 0 →
    (∃ t, exec (.div rd rs1 rs2) s = .next t ∧
      OnlyWritesReg s t rd (wrap (Int.tdiv (sint (s.readReg rs1)) (sint (s.readReg rs2))))) ∧
    ∃ t, exec (.rem rd rs1 rs2) s = .next t ∧
      OnlyWritesReg s t rd
        (wrap (sint (s.readReg rs1) - sint (s.readReg rs2) * Int.tdiv (sint (s.readReg rs1)) (sint (s.readReg rs2))))

/-! ### Register-immediate and upper-immediate instructions -/

/-- `addi`, `subi`, `muli` (40_integer_computational.md R134, R135, R146). -/
def Obligations.AddSubMulImmediateResult : Prop :=
  ∀ (s : State) (rd rs1 : Reg) (imm : Int),
    (∃ t, exec (.addi rd rs1 imm) s = .next t ∧ OnlyWritesReg s t rd (wrap (sint (s.readReg rs1) + imm))) ∧
    (∃ t, exec (.subi rd rs1 imm) s = .next t ∧ OnlyWritesReg s t rd (wrap (sint (s.readReg rs1) - imm))) ∧
    ∃ t, exec (.muli rd rs1 imm) s = .next t ∧ OnlyWritesReg s t rd (wrap (sint (s.readReg rs1) * imm))

/-- `andi`, `ori`, `xori` with the immediate sign-extended (40_integer_computational.md R136, R137, R138). -/
def Obligations.LogicImmediateResult : Prop :=
  ∀ (s : State) (rd rs1 : Reg) (imm : Int),
    (∃ t v, exec (.andi rd rs1 imm) s = .next t ∧ OnlyWritesReg s t rd v ∧
      ∀ k, v.getLsbD k = ((s.readReg rs1).getLsbD k && (wrap imm).getLsbD k)) ∧
    (∃ t v, exec (.ori rd rs1 imm) s = .next t ∧ OnlyWritesReg s t rd v ∧
      ∀ k, v.getLsbD k = ((s.readReg rs1).getLsbD k || (wrap imm).getLsbD k)) ∧
    ∃ t v, exec (.xori rd rs1 imm) s = .next t ∧ OnlyWritesReg s t rd v ∧
      ∀ k, v.getLsbD k = ((s.readReg rs1).getLsbD k != (wrap imm).getLsbD k)

/-- `slli`, `srli`, `srai` (40_integer_computational.md R139, R140, R141). -/
def Obligations.ShiftImmediateResult : Prop :=
  ∀ (s : State) (rd rs1 : Reg) (shamt : Fin 32),
    (∃ t, exec (.slli rd rs1 shamt) s = .next t ∧
      OnlyWritesReg s t rd (wrap ((uint (s.readReg rs1) : Int) * 2 ^ shamt.val))) ∧
    (∃ t v, exec (.srli rd rs1 shamt) s = .next t ∧ OnlyWritesReg s t rd v ∧
      uint v = uint (s.readReg rs1) / 2 ^ shamt.val) ∧
    ∃ t, exec (.srai rd rs1 shamt) s = .next t ∧
      OnlyWritesReg s t rd (wrap (Int.fdiv (sint (s.readReg rs1)) (2 ^ shamt.val)))

/-- `slti`, `seqi`, `snei`, `sgei` with an immediate in the range of its field (40_integer_computational.md R142-R145). -/
def Obligations.CompareImmediateResult : Prop :=
  ∀ (s : State) (rd rs1 : Reg) (imm : Int), -2048 ≤ imm → imm ≤ 2047 →
    (∃ t, exec (.slti rd rs1 imm) s = .next t ∧
      OnlyWritesReg s t rd (if sint (s.readReg rs1) < imm then 1 else 0)) ∧
    (∃ t, exec (.seqi rd rs1 imm) s = .next t ∧
      OnlyWritesReg s t rd (if sint (s.readReg rs1) = imm then 1 else 0)) ∧
    (∃ t, exec (.snei rd rs1 imm) s = .next t ∧
      OnlyWritesReg s t rd (if sint (s.readReg rs1) ≠ imm then 1 else 0)) ∧
    ∃ t, exec (.sgei rd rs1 imm) s = .next t ∧
      OnlyWritesReg s t rd (if sint (s.readReg rs1) ≥ imm then 1 else 0)

/-- `divi`, `remi` with an immediate in the range of its field and not 0 (40_integer_computational.md R147, R148); the
immediate 0 is DivisionByZeroFollowsPolicy's. -/
def Obligations.DivideImmediateResult : Prop :=
  ∀ (s : State) (rd rs1 : Reg) (imm : Int), -2048 ≤ imm → imm ≤ 2047 → imm ≠ 0 →
    (∃ t, exec (.divi rd rs1 imm) s = .next t ∧
      OnlyWritesReg s t rd (wrap (Int.tdiv (sint (s.readReg rs1)) imm))) ∧
    ∃ t, exec (.remi rd rs1 imm) s = .next t ∧
      OnlyWritesReg s t rd (wrap (sint (s.readReg rs1) - imm * Int.tdiv (sint (s.readReg rs1)) imm))

/-- `lui`: the immediate times 2^12, so zeros in bits 11..0 and the immediate above (40_integer_computational.md R149). -/
def Obligations.LoadUpperImmediateResult : Prop :=
  ∀ (s : State) (rd : Reg) (u20 : Nat),
    ∃ t, exec (.lui rd u20) s = .next t ∧ OnlyWritesReg s t rd (wrap ((u20 : Int) * 2 ^ 12)) ∧
      (u20 ≤ 1048575 → rd ≠ 0 → field (t.readReg rd) 12 20 = u20 ∧ field (t.readReg rd) 0 12 = 0)

/-! ### Load and store -/

/-- 41_load_store.md R150: base register plus signed offset in words, modulo 2^32; with rs1 = x0 the offset itself. -/
def Obligations.EffectiveAddressIsBasePlusOffset : Prop :=
  ∀ (s : State) (rs1 : Reg) (imm : Int),
    effectiveAddress s rs1 imm = wrap (sint (s.readReg rs1) + imm) ∧ effectiveAddress s 0 imm = wrap imm

/-- `lw`: the addressed word into rd, or LoadOutOfRange(ea) with nothing written, rd = x0 included (41_load_store.md
R151). -/
def Obligations.LoadWordResult : Prop :=
  ∀ (s : State) (rd rs1 : Reg) (imm : Int),
    if uint (effectiveAddress s rs1 imm) < s.params.memWords then
      ∃ t, exec (.lw rd rs1 imm) s = .next t ∧ OnlyWritesReg s t rd (s.mem.read (uint (effectiveAddress s rs1 imm)))
    else
      ∃ t, exec (.lw rd rs1 imm) s = .next t ∧ TrappedFrom s t .loadOutOfRange (effectiveAddress s rs1 imm)

/-- `sw`: the register into the addressed cell and nothing else, or StoreOutOfRange(ea) with memory unchanged
(41_load_store.md R152). A canonical memory is the invariant InvariantKeptByEveryStep. -/
def Obligations.StoreWordResult : Prop :=
  ∀ (s : State) (rs2 rs1 : Reg) (imm : Int), Memory.wf s.mem = true →
    if uint (effectiveAddress s rs1 imm) < s.params.memWords then
      ∃ t, exec (.sw rs2 rs1 imm) s = .next t ∧ t.pc = s.pc + 1 ∧ SameRegs s t ∧ SameStreams s t ∧ SameControl s t ∧
        t.mem.read (uint (effectiveAddress s rs1 imm)) = s.readReg rs2 ∧
        ∀ a, a ≠ uint (effectiveAddress s rs1 imm) → t.mem.read a = s.mem.read a
    else
      ∃ t, exec (.sw rs2 rs1 imm) s = .next t ∧ TrappedFrom s t .storeOutOfRange (effectiveAddress s rs1 imm)

/-! ### Control transfer and environment calls -/

/-- The four branches: the target is the slot after the branch plus the offset, modulo 2^32, and nothing else changes
(42_control_transfer.md R165-R169). -/
def Obligations.BranchesSetPc : Prop :=
  ∀ (s : State) (rs1 rs2 : Reg) (off : Int),
    (∃ t, exec (.beq rs1 rs2 off) s = .next t ∧
      OnlySetsPc s t (if sint (s.readReg rs1) = sint (s.readReg rs2) then wrap (uint s.pc + 1 + off) else s.pc + 1)) ∧
    (∃ t, exec (.bne rs1 rs2 off) s = .next t ∧
      OnlySetsPc s t (if sint (s.readReg rs1) ≠ sint (s.readReg rs2) then wrap (uint s.pc + 1 + off) else s.pc + 1)) ∧
    (∃ t, exec (.blt rs1 rs2 off) s = .next t ∧
      OnlySetsPc s t (if sint (s.readReg rs1) < sint (s.readReg rs2) then wrap (uint s.pc + 1 + off) else s.pc + 1)) ∧
    ∃ t, exec (.bge rs1 rs2 off) s = .next t ∧
      OnlySetsPc s t (if sint (s.readReg rs1) ≥ sint (s.readReg rs2) then wrap (uint s.pc + 1 + off) else s.pc + 1)

/-- `jal` and `jalr`: the link is the slot after the jump, the target is computed from the old registers, and nothing else
changes (42_control_transfer.md R170, R171). -/
def Obligations.JumpsLinkAndSetPc : Prop :=
  ∀ (s : State) (rd rs1 : Reg) (off : Int),
    (∃ t, exec (.jal rd off) s = .next t ∧ WritesReg s t rd (s.pc + 1) ∧ t.pc = wrap (uint s.pc + 1 + off) ∧
      SameMemory s t ∧ SameStreams s t ∧ SameControl s t) ∧
    ∃ t, exec (.jalr rd rs1 off) s = .next t ∧ WritesReg s t rd (s.pc + 1) ∧
      t.pc = wrap (sint (s.readReg rs1) + off) ∧ SameMemory s t ∧ SameStreams s t ∧ SameControl s t

/-- `ebreak` halts with the pc one slot on, records no trap and touches nothing else; the next step changes nothing
(43_environment.md R182). -/
def Obligations.EbreakHalts : Prop :=
  ∀ s : State, ∃ t, exec .ebreak s = .next t ∧ t.halted = true ∧ t.pc = s.pc + 1 ∧ t.trap = s.trap ∧ t.started = true ∧
    t.params = s.params ∧ SameRegs s t ∧ SameMemory s t ∧ SameStreams s t ∧ hostStep t = (t, .halted)

/-- `eread`: the code at the cursor, consumed for rd = x0 too, or 0 at the end of the input with the cursor unmoved; in
both cases no other effect (43_environment.md R180, R183). -/
def Obligations.EreadTakesNextCode : Prop :=
  ∀ (s : State) (rd : Reg),
    if h : s.cursor < s.params.input.length then
      ∃ t, exec (.eread rd) s = .next t ∧ WritesReg s t rd s.params.input[s.cursor] ∧ t.cursor = s.cursor + 1 ∧
        t.out = s.out ∧ t.pc = s.pc + 1 ∧ SameMemory s t ∧ SameControl s t
    else ∃ t, exec (.eread rd) s = .next t ∧ OnlyWritesReg s t rd 0

/-- `ewrite`: the whole register appended to the output, and nothing else (43_environment.md R181, R184). -/
def Obligations.EwriteAppends : Prop :=
  ∀ (s : State) (rs1 : Reg),
    ∃ t, exec (.ewrite rs1) s = .next t ∧ t.out.length = s.out.length + 1 ∧ t.out.getLast? = some (s.readReg rs1) ∧
      t.out.dropLast = s.out ∧ t.cursor = s.cursor ∧ t.pc = s.pc + 1 ∧ SameRegs s t ∧ SameMemory s t ∧ SameControl s t

/-! ### The step -/

/-- A step runs the decoded instruction: where the cell at the pc decodes under the run's OPCODE_MAP, the step is `exec` of the instruction at that
state, the pc there still being the slot of the instruction (42_control_transfer.md R160). -/
def Obligations.StepRunsTheDecodedInstruction : Prop :=
  ∀ (s : State) (i : Instr), s.halted = false → uint s.pc < s.params.memWords →
    decodeWith s.params.opcodeMap (s.mem.read (uint s.pc)) = .ok i → step s = exec i s

/-- 42_control_transfer.md R160, R161, R163: the step as a function, with its outcome, in every case. -/
def Obligations.HostStepFollowsTheSequencerRule : Prop :=
  ∀ s : State,
    (s.halted = true → hostStep s = (s, .halted)) ∧
    (s.halted = false → s.params.memWords ≤ uint s.pc →
      hostStep s = ({ s with started := true, halted := true, trap := some ⟨.fetchOutOfRange, s.pc⟩ },
        .trapped .fetchOutOfRange)) ∧
    (s.halted = false → uint s.pc < s.params.memWords → ∀ why,
      decodeWith s.params.opcodeMap (s.mem.read (uint s.pc)) = .error why →
      hostStep s = ({ s with started := true, halted := true }, .halted)) ∧
    (s.halted = false → uint s.pc < s.params.memWords → ∀ i,
      decodeWith s.params.opcodeMap (s.mem.read (uint s.pc)) = .ok i →
      ∃ t, exec i s = .next t ∧
        ((∃ c v, t = { s with started := true, halted := true, trap := some ⟨c, v⟩ } ∧ hostStep s = (t, .trapped c)) ∨
          (t.trap = s.trap ∧ t.started = true ∧ t.halted = (i == .ebreak) ∧
            hostStep s = (t, if i = .ebreak then .halted else .continued))))

/-- Every step answers a next state: no instruction blocks (60_exceptions.md R236), faults or is refused. That a trapped step
is a next state, the one 42_control_transfer.md R160 and 60_exceptions.md R224 give, and not a fault of the host's interface
is the model's reading, log entry 8 (DEDUCED). -/
def Obligations.EveryStepAnswersNext : Prop :=
  ∀ s : State, ∃ t, step s = .next t

/-- 60_exceptions.md R222: a fetch out of range traps with the pc, changing nothing else; and the pc leaves memory only
by a control transfer to somewhere else than the next slot, or by the increment past the last slot. -/
def Obligations.FetchOutOfRangeTraps : Prop :=
  (∀ s : State, s.halted = false → s.params.memWords ≤ uint s.pc →
    (hostStep s).2 = .trapped .fetchOutOfRange ∧ TrappedFrom s (hostStep s).1 .fetchOutOfRange s.pc) ∧
  ∀ s t : State, uint s.pc < s.params.memWords → step s = .next t → t.params.memWords ≤ uint t.pc →
    ∃ i, fetch s = .instr i ∧
      (transfersControl i = true ∧ t.pc ≠ s.pc + 1 ∨ t.pc = s.pc + 1 ∧ uint s.pc = s.params.memWords - 1)

/-- The pc after a step that executes an instruction: one slot on unless the instruction transfers control, or where it
was if the instruction trapped (42_control_transfer.md R162; 10_state.md R26; 60_exceptions.md R224). -/
def Obligations.PcAdvancesUnlessTransferred : Prop :=
  ∀ (s t : State) (i : Instr), s.halted = false → fetch s = .instr i → step s = .next t → transfersControl i = false →
    t.pc = s.pc + 1 ∨ (t.pc = s.pc ∧ ∃ c, stepOutcome s = .trapped c)

/-- 60_exceptions.md R224: a step whose outcome is a trap sets `halted`, the trap record and `started`, and leaves every
other part of the state as it was, the pc included. -/
def Obligations.TrapIsPrecise : Prop :=
  ∀ (s : State) (c : TrapCause), (hostStep s).2 = .trapped c → ∃ v, TrappedFrom s (hostStep s).1 c v

/-- 60_exceptions.md R223: a step traps with a cause and a value exactly for the reason the table gives, so no other cause
exists; and the codes of the causes. -/
def Obligations.TrapsHappenExactlyForTheirReasons : Prop :=
  (∀ s : State, s.halted = false → ∀ (c : TrapCause) (v : Word),
    ((hostStep s).2 = .trapped c ∧ (hostStep s).1.trap = some ⟨c, v⟩) ↔ TrapReason s c v) ∧
  causeCode .fetchOutOfRange = 1 ∧ causeCode .loadOutOfRange = 2 ∧ causeCode .storeOutOfRange = 3 ∧
  causeCode .divideByZero = 4

/-- 10_state.md R27: a step halts the machine exactly by `ebreak`, by an Invalid fetch or by a trap; and a halted machine
stays halted. -/
def Obligations.HaltedOnlyByEbreakInvalidOrTrap : Prop :=
  ∀ s t : State, step s = .next t →
    (s.halted = true → t.halted = true) ∧
    (s.halted = false →
      (t.halted = true ↔
        fetch s = .instr .ebreak ∨ (∃ why, fetch s = .invalid why) ∨ ∃ c, (hostStep s).2 = .trapped c))

/-- The invariant of Safety.lean (canonical memory inside MEM_WORDS, cell 0 of the registers 0, the cursor inside the input,
a trap record only when halted) is kept by every step, from every state that has it. -/
def Obligations.InvariantKeptByEveryStep : Prop :=
  ∀ s t : State, s.Inv → step s = .next t → t.Inv

/-- The invariant holds at reset. -/
def Obligations.InvariantHoldsAtReset : Prop :=
  State.reset.Inv

/-- The parameters of a run never change, `started` is set by every step of a machine that is not halted and never
cleared, and the trap record changes only together with `halted` (10_state.md R28, R29, R36). -/
def Obligations.StepKeepsParametersAndSetsStarted : Prop :=
  ∀ s t : State, step s = .next t →
    t.params = s.params ∧ (s.halted = false → t.started = true) ∧ (s.started = true → t.started = true) ∧
    (t.trap ≠ s.trap → s.halted = false ∧ t.halted = true)

/-- 10_state.md R30, R31: the cursor never goes back and moves only by `eread`, one code at a time inside the input; the
output only grows, by `ewrite`, one word at a time. -/
def Obligations.StreamsMoveOnlyByTheirInstruction : Prop :=
  ∀ s t : State, step s = .next t →
    (t.cursor = s.cursor ∨
      ∃ rd, fetch s = .instr (.eread rd) ∧ t.cursor = s.cursor + 1 ∧ s.cursor < s.params.input.length) ∧
    (t.out = s.out ∨ ∃ rs1, fetch s = .instr (.ewrite rs1) ∧ t.out = s.out ++ [s.readReg rs1])

/-- 20_memory.md R44: a step changes no cell but the one its `sw` addresses. -/
def Obligations.MemoryChangesOnlyByStore : Prop :=
  ∀ (s t : State) (a : Nat), step s = .next t → t.mem.read a ≠ s.mem.read a →
    ∃ rs2 rs1 imm, fetch s = .instr (.sw rs2 rs1 imm) ∧ a = uint (effectiveAddress s rs1 imm) ∧ a < s.params.memWords

/-- 10_state.md R23, R25: a step changes no register but the destination its instruction names, and x0 reads 0 after it. -/
def Obligations.RegistersChangeOnlyAsDestination : Prop :=
  ∀ (s t : State) (r : Reg), step s = .next t →
    t.readReg 0 = 0 ∧ (t.readReg r ≠ s.readReg r → ∃ i, fetch s = .instr i ∧ destReg i = some r ∧ r ≠ 0)

/-- 10_state.md R23: an instruction's effect does not depend on a register it does not read. The next states agree in
everything but that register, and in that register too where it is the destination, unless the instruction trapped and so
wrote nothing. -/
def Obligations.UnreadRegistersDoNotMatter : Prop :=
  ∀ (i : Instr) (r : Reg) (s s' t t' : State), r ∉ sourceRegs i → AgreeExcept r s s' →
    exec i s = .next t → exec i s' = .next t' →
    AgreeExcept r t t' ∧ (destReg i = some r → (∀ c v, ¬ TrappedFrom s t c v) → t'.readReg r = t.readReg r)

/-! ### Registers and memory -/

/-- 10_state.md R21, R22: after any sequence of register writes x0 reads 0, and every other register reads the value
written to it last, or what it held. -/
def Obligations.RegistersHoldTheLastWrite : Prop :=
  ∀ (writes : List (Reg × Word)) (s : State) (r : Reg),
    (writes.foldl (fun u p => u.writeReg p.1 p.2) s).readReg r =
      if r = 0 then 0
      else match writes.reverse.find? fun p => p.1 == r with
        | some p => p.2
        | none => s.readReg r

/-- 20_memory.md R42, R43: out of range nothing is read or written; in range a write replaces the whole word, later reads and
the next fetch there see it, and every other cell is as it was. -/
def Obligations.MemoryReadsTheLastWrite : Prop :=
  ∀ (s : State) (a v : Word), Memory.wf s.mem = true →
    if uint a < s.params.memWords then
      ∃ t, s.memWrite a v = some t ∧ s.memRead a = some (s.mem.read (uint a)) ∧ t.memRead a = some v ∧
        (∀ b, b ≠ a → t.memRead b = s.memRead b) ∧
        fetch (t.setPc a) = (match decodeWith s.params.opcodeMap v with | .ok i => .instr i | .error why => .invalid why)
    else s.memWrite a v = none ∧ s.memRead a = none

/-- 20_memory.md R50, 70_reset_and_hazards.md R248: a store to the slot after it changes the instruction that the next step
fetches. -/
def Obligations.StoreChangesTheNextInstruction : Prop :=
  ∀ (s : State) (rs2 rs1 : Reg) (imm : Int) (i : Instr), Memory.wf s.mem = true → s.halted = false →
    fetch s = .instr (.sw rs2 rs1 imm) → effectiveAddress s rs1 imm = s.pc + 1 →
    uint (s.pc + 1) < s.params.memWords → decodeWith s.params.opcodeMap (s.readReg rs2) = .ok i →
    ∃ t, step s = .next t ∧ fetch t = .instr i ∧ step t = exec i t

/-! ### The host's operations -/

/-- 70_reset_and_hazards.md R240: reset, from any state, sets every field to its reset value, and the status is ready. That
it keeps the run's parameters, the input stream included, is the model's choice, log entry 2 (DESIGN CHOICE), and no part of
R240. -/
def Obligations.ResetSetsEveryField : Prop :=
  ∀ s : State,
    (∀ r, (hostReset s).readReg r = 0) ∧ (hostReset s).pc = 0 ∧ (hostReset s).halted = false ∧
    (hostReset s).trap = none ∧ (hostReset s).started = false ∧ (hostReset s).cursor = 0 ∧ (hostReset s).out = [] ∧
    (∀ a, (hostReset s).mem.read a = 0) ∧ status (hostReset s) = .ready ∧ (hostReset s).params = s.params ∧
    hostReset State.reset = State.reset

/-- 70_reset_and_hazards.md R241: a successful load leaves a ready machine, all registers 0, with the image from slot 0 on
and 0 in every other cell, the input stream untouched. -/
def Obligations.LoadPlacesTheImage : Prop :=
  ∀ (s : State) (source : String) (image : MachineImage), assemble s.params.opcodeMap s.params.memWords source = .ok image →
    (load s source).2 = [] ∧ (∀ a, (load s source).1.mem.read a = image.words.getD a 0) ∧
    (load s source).1 = { hostReset s with mem := (load s source).1.mem } ∧
    status (load s source).1 = .ready ∧ (load s source).1.params = s.params

/-- 70_reset_and_hazards.md R242: a failed load returns the errors and leaves the machine as reset leaves it. The first step
then halts on the word 0 at slot 0, an inference the rule marks as its own ("derived: from rules R240 and
42_control_transfer.md R161"), under every OPCODE_MAP that gives no row the opcode 0; that a map
may give one is the model's choice (log entry 23, DESIGN CHOICE). -/
def Obligations.FailedLoadLeavesResetState : Prop :=
  ∀ (s : State) (source : String) (errors : List AssemblyError), 1 ≤ s.params.memWords →
    assemble s.params.opcodeMap s.params.memWords source = .error errors →
    load s source = (hostReset s, errors) ∧
    ((∀ m, (s.params.opcodeMap.row m).opcode ≠ 0) →
      ∃ t, hostStep (hostReset s) = (t, .halted) ∧ t.halted = true ∧ t.pc = 0 ∧ t.trap = none)

/-- 44_assembler.md R205-R207: an image that assembles fits in memory. A source that does not assemble has at least one
error, those of pass 1 first, line by line, then those of pass 2, of patches, line by line. -/
def Obligations.AssembledImageFitsMemory : Prop :=
  ∀ (map : OpcodeMap) (memWords : Nat) (source : String),
    (∀ image, assemble map memWords source = .ok image → image.words.length ≤ memWords) ∧
    ∀ errors, assemble map memWords source = .error errors →
      errors ≠ [] ∧ ∃ first second, errors = first ++ second ∧
        first.Pairwise (fun a b => a.lineNumber < b.lineNumber) ∧
        second.Pairwise (fun a b => a.lineNumber < b.lineNumber) ∧
        (∀ e ∈ first, e.kind ≠ .unknownLabel) ∧
        ∀ e ∈ second, e.kind = .unknownLabel ∨ ∃ f, e.kind = .encodingImpossible (some f)

/-- Load and the host's other operations leave a machine that has the invariant (70_reset_and_hazards.md R240-R242;
60_exceptions.md R226). -/
def Obligations.HostOperationsEstablishInvariant : Prop :=
  ∀ (s : State) (source : String),
    (hostReset s).Inv ∧ (load s source).1.Inv ∧ (s.Inv → (haltRequest s).Inv)

/-- 60_exceptions.md R226: the host's halt request changes the halted flag alone, records no trap, and the next step
returns Halted with nothing changed. -/
def Obligations.HaltRequestStopsTheNextStep : Prop :=
  ∀ s : State, (haltRequest s).trap = s.trap ∧ SameRegs s (haltRequest s) ∧ (haltRequest s).pc = s.pc ∧
    (haltRequest s).mem = s.mem ∧ SameStreams s (haltRequest s) ∧ (haltRequest s).started = s.started ∧
    hostStep (haltRequest s) = (haltRequest s, .halted)

/-- 42_control_transfer.md R164, 70_reset_and_hazards.md R250: a run of no steps is LimitReached with the state as it is; a
run of n + 1 steps is one step, and after it the run of n steps if the outcome was Continued, else that outcome. So running
on after the limit is running with the larger limit, a run that ends earlier is not changed by a larger limit, and a run that
does not reach its limit ends halted. -/
def Obligations.RunsCompose : Prop :=
  ∀ (s : State) (m n : Nat),
    run s 0 = (s, .limitReached) ∧
    ((hostStep s).2 = .continued → run s (n + 1) = run (hostStep s).1 n) ∧
    ((hostStep s).2 = .halted → run s (n + 1) = ((hostStep s).1, .halted)) ∧
    (∀ c, (hostStep s).2 = .trapped c → run s (n + 1) = ((hostStep s).1, .trapped c)) ∧
    run s (m + n) = (if (run s m).2 = .limitReached then run (run s m).1 n else run s m) ∧
    ((run s m).2 ≠ .limitReached → (run s m).1.halted = true)

/-- 44_assembler.md R198: the expansion of `li rd, imm` always encodes, to one word or two, and executing it, under the same
valid OPCODE_MAP, leaves `wrap(imm)` in rd in every case, changing no other register. -/
def Obligations.LiExpansionLoadsTheConstant : Prop :=
  ∀ (s : State) (rd : Reg) (v : Word),
    ∃ words, encodeAll s.params.opcodeMap (liExpansion rd v) = .ok words ∧
      (words.length = if (-2048 ≤ sint v ∧ sint v ≤ 2047) ∨ field v 0 12 = 0 then 1 else 2) ∧
      (s.params.opcodeMap.Valid → s.halted = false → rd ≠ 0 →
        (∀ k, k < words.length → uint (s.pc + BitVec.ofNat 32 k) < s.params.memWords ∧
          some (s.mem.read (uint (s.pc + BitVec.ofNat 32 k))) = words[k]?) →
        ∃ t, stepTimes words.length s = .next t ∧ t.readReg rd = v ∧ (∀ r, r ≠ rd → t.readReg r = s.readReg r) ∧
          t.pc = s.pc + BitVec.ofNat 32 words.length ∧ SameMemory s t ∧ SameStreams s t ∧ t.halted = false)

/-- 44_assembler.md R204: with the assembler's offset, a `jal` and a taken branch at a slot reach exactly the label's slot. -/
def Obligations.LabelOffsetReachesTheLabel : Prop :=
  ∀ (s : State) (rd rs1 : Reg) (labelSlot : Nat), labelSlot < 2 ^ 32 →
    (∃ t, exec (.jal rd (labelOffset labelSlot (uint s.pc))) s = .next t ∧ uint t.pc = labelSlot) ∧
    ∃ t, exec (.beq rs1 rs1 (labelOffset labelSlot (uint s.pc))) s = .next t ∧ uint t.pc = labelSlot
end

