-- ==== Sys2Proof/Laws/Codec.lean ====
section
/-! SUPPORT. What the codec primitives do to single bits. -/

namespace Sys2Proof

/-- The bits of a run of ones. -/
theorem lowOnes_getLsbD {width : Nat} (k : Nat) (hk : k < 32) : (lowOnes width).getLsbD k = decide (k < width) := by
  simp only [lowOnes, BitVec.getLsbD_ofNat, Nat.testBit_two_pow_sub_one, hk, decide_true, Bool.true_and]

/-- The bits after a `put`: the field holds the low bits of the value, the other bits are as before. -/
theorem put_getLsbD (w : Word) {lo width : Nat} (v : Int) (h : lo + width ≤ 32) (k : Nat) (hk : k < 32) :
    (put w lo width v).getLsbD k = if lo ≤ k ∧ k < lo + width then (wrap v).getLsbD (k - lo) else w.getLsbD k := by
  unfold put
  simp only [BitVec.getLsbD_or, BitVec.getLsbD_and, BitVec.getLsbD_not, BitVec.getLsbD_shiftLeft, hk, decide_true,
    Bool.true_and]
  by_cases hlo : k < lo
  · have hcond : ¬ (lo ≤ k ∧ k < lo + width) := by omega
    simp [hlo, hcond]
  · have hsub : k - lo < 32 := by omega
    simp only [hlo, decide_false, Bool.not_false, Bool.true_and, lowOnes_getLsbD (k - lo) hsub]
    by_cases hin : k < lo + width
    · have hcond : lo ≤ k ∧ k < lo + width := by omega
      have hw : k - lo < width := by omega
      simp [hcond, hw]
    · have hcond : ¬ (lo ≤ k ∧ k < lo + width) := by omega
      have hw : ¬ (k - lo < width) := by omega
      simp [hcond, hw]

/-- A field is the number of a bit slice. -/
theorem field_eq_extract (w : Word) (lo width : Nat) : field w lo width = (w.extractLsb' lo width).toNat := by
  simp [field, BitVec.extractLsb'_toNat, Nat.shiftRight_eq_div_pow]

/-- The bits of a field. -/
theorem field_testBit (w : Word) (lo width k : Nat) :
    (field w lo width).testBit k = (decide (k < width) && w.getLsbD (lo + k)) := by
  rw [field_eq_extract, ← BitVec.getLsbD, BitVec.getLsbD_extractLsb']

/-- A field is below its width's power of two. -/
theorem field_lt (w : Word) (lo width : Nat) : field w lo width < 2 ^ width := Nat.mod_lt _ (Nat.two_pow_pos width)

end Sys2Proof
end

