-- ==== Sys2Proof/Laws/Dispatch.lean ====
section
/-! SUPPORT. Each arm of `exec` in terms of the shared operation it is one line over. -/

namespace Sys2Proof.Machine

theorem exec_add (rd rs1 rs2 : Reg) (s : State) :
    exec (.add rd rs1 rs2) s = aluInto .add rd (s.readReg rs1) (s.readReg rs2) s := rfl

theorem exec_sub (rd rs1 rs2 : Reg) (s : State) :
    exec (.sub rd rs1 rs2) s = aluInto .sub rd (s.readReg rs1) (s.readReg rs2) s := rfl

theorem exec_and (rd rs1 rs2 : Reg) (s : State) :
    exec (.and rd rs1 rs2) s = aluInto .and rd (s.readReg rs1) (s.readReg rs2) s := rfl

theorem exec_or (rd rs1 rs2 : Reg) (s : State) :
    exec (.or rd rs1 rs2) s = aluInto .or rd (s.readReg rs1) (s.readReg rs2) s := rfl

theorem exec_xor (rd rs1 rs2 : Reg) (s : State) :
    exec (.xor rd rs1 rs2) s = aluInto .xor rd (s.readReg rs1) (s.readReg rs2) s := rfl

theorem exec_sll (rd rs1 rs2 : Reg) (s : State) :
    exec (.sll rd rs1 rs2) s = aluInto .sll rd (s.readReg rs1) (s.readReg rs2) s := rfl

theorem exec_srl (rd rs1 rs2 : Reg) (s : State) :
    exec (.srl rd rs1 rs2) s = aluInto .srl rd (s.readReg rs1) (s.readReg rs2) s := rfl

theorem exec_sra (rd rs1 rs2 : Reg) (s : State) :
    exec (.sra rd rs1 rs2) s = aluInto .sra rd (s.readReg rs1) (s.readReg rs2) s := rfl

theorem exec_slt (rd rs1 rs2 : Reg) (s : State) :
    exec (.slt rd rs1 rs2) s = aluInto .slt rd (s.readReg rs1) (s.readReg rs2) s := rfl

theorem exec_seq (rd rs1 rs2 : Reg) (s : State) :
    exec (.seq rd rs1 rs2) s = aluInto .seq rd (s.readReg rs1) (s.readReg rs2) s := rfl

theorem exec_sne (rd rs1 rs2 : Reg) (s : State) :
    exec (.sne rd rs1 rs2) s = aluInto .sne rd (s.readReg rs1) (s.readReg rs2) s := rfl

theorem exec_sge (rd rs1 rs2 : Reg) (s : State) :
    exec (.sge rd rs1 rs2) s = aluInto .sge rd (s.readReg rs1) (s.readReg rs2) s := rfl

theorem exec_mul (rd rs1 rs2 : Reg) (s : State) :
    exec (.mul rd rs1 rs2) s = aluInto .mul rd (s.readReg rs1) (s.readReg rs2) s := rfl

theorem exec_div (rd rs1 rs2 : Reg) (s : State) :
    exec (.div rd rs1 rs2) s = aluInto .div rd (s.readReg rs1) (s.readReg rs2) s := rfl

theorem exec_rem (rd rs1 rs2 : Reg) (s : State) :
    exec (.rem rd rs1 rs2) s = aluInto .rem rd (s.readReg rs1) (s.readReg rs2) s := rfl

theorem exec_addi (rd rs1 : Reg) (imm : Int) (s : State) :
    exec (.addi rd rs1 imm) s = aluInto .add rd (s.readReg rs1) (immediateOperand imm) s := rfl

theorem exec_subi (rd rs1 : Reg) (imm : Int) (s : State) :
    exec (.subi rd rs1 imm) s = aluInto .sub rd (s.readReg rs1) (immediateOperand imm) s := rfl

theorem exec_andi (rd rs1 : Reg) (imm : Int) (s : State) :
    exec (.andi rd rs1 imm) s = aluInto .and rd (s.readReg rs1) (immediateOperand imm) s := rfl

theorem exec_ori (rd rs1 : Reg) (imm : Int) (s : State) :
    exec (.ori rd rs1 imm) s = aluInto .or rd (s.readReg rs1) (immediateOperand imm) s := rfl

theorem exec_xori (rd rs1 : Reg) (imm : Int) (s : State) :
    exec (.xori rd rs1 imm) s = aluInto .xor rd (s.readReg rs1) (immediateOperand imm) s := rfl

theorem exec_slli (rd rs1 : Reg) (shamt : Fin 32) (s : State) :
    exec (.slli rd rs1 shamt) s = aluInto .sll rd (s.readReg rs1) (shamtOperand shamt) s := rfl

theorem exec_srli (rd rs1 : Reg) (shamt : Fin 32) (s : State) :
    exec (.srli rd rs1 shamt) s = aluInto .srl rd (s.readReg rs1) (shamtOperand shamt) s := rfl

theorem exec_srai (rd rs1 : Reg) (shamt : Fin 32) (s : State) :
    exec (.srai rd rs1 shamt) s = aluInto .sra rd (s.readReg rs1) (shamtOperand shamt) s := rfl

theorem exec_slti (rd rs1 : Reg) (imm : Int) (s : State) :
    exec (.slti rd rs1 imm) s = aluInto .slt rd (s.readReg rs1) (immediateOperand imm) s := rfl

theorem exec_seqi (rd rs1 : Reg) (imm : Int) (s : State) :
    exec (.seqi rd rs1 imm) s = aluInto .seq rd (s.readReg rs1) (immediateOperand imm) s := rfl

theorem exec_snei (rd rs1 : Reg) (imm : Int) (s : State) :
    exec (.snei rd rs1 imm) s = aluInto .sne rd (s.readReg rs1) (immediateOperand imm) s := rfl

theorem exec_sgei (rd rs1 : Reg) (imm : Int) (s : State) :
    exec (.sgei rd rs1 imm) s = aluInto .sge rd (s.readReg rs1) (immediateOperand imm) s := rfl

theorem exec_muli (rd rs1 : Reg) (imm : Int) (s : State) :
    exec (.muli rd rs1 imm) s = aluInto .mul rd (s.readReg rs1) (immediateOperand imm) s := rfl

theorem exec_divi (rd rs1 : Reg) (imm : Int) (s : State) :
    exec (.divi rd rs1 imm) s = aluInto .div rd (s.readReg rs1) (immediateOperand imm) s := rfl

theorem exec_remi (rd rs1 : Reg) (imm : Int) (s : State) :
    exec (.remi rd rs1 imm) s = aluInto .rem rd (s.readReg rs1) (immediateOperand imm) s := rfl

theorem exec_lui (rd : Reg) (u20 : Nat) (s : State) :
    exec (.lui rd u20) s = .next (s.advance.writeReg rd (upperImmediate u20)) := rfl

theorem exec_lw (rd rs1 : Reg) (imm : Int) (s : State) : exec (.lw rd rs1 imm) s = execLw rd rs1 imm s := rfl

theorem exec_sw (rs2 rs1 : Reg) (imm : Int) (s : State) : exec (.sw rs2 rs1 imm) s = execSw rs2 rs1 imm s := rfl

theorem exec_beq (rs1 rs2 : Reg) (off : Int) (s : State) :
    exec (.beq rs1 rs2 off) s = branch .beq rs1 rs2 off s := rfl

theorem exec_bne (rs1 rs2 : Reg) (off : Int) (s : State) :
    exec (.bne rs1 rs2 off) s = branch .bne rs1 rs2 off s := rfl

theorem exec_blt (rs1 rs2 : Reg) (off : Int) (s : State) :
    exec (.blt rs1 rs2 off) s = branch .blt rs1 rs2 off s := rfl

theorem exec_bge (rs1 rs2 : Reg) (off : Int) (s : State) :
    exec (.bge rs1 rs2 off) s = branch .bge rs1 rs2 off s := rfl

theorem exec_jal (rd : Reg) (off : Int) (s : State) :
    exec (.jal rd off) s = jumpAndLink rd (relativeTarget s off) s := rfl

theorem exec_jalr (rd rs1 : Reg) (imm : Int) (s : State) :
    exec (.jalr rd rs1 imm) s = jumpAndLink rd (absoluteTarget s rs1 imm) s := rfl

theorem exec_ebreak (s : State) : exec .ebreak s = .next s.advance.halt := rfl

theorem exec_eread (rd : Reg) (s : State) :
    exec (.eread rd) s = .next (s.advance.inRead.2.writeReg rd s.advance.inRead.1) := rfl

theorem exec_ewrite (rs1 : Reg) (s : State) :
    exec (.ewrite rs1) s = .next (s.advance.outWrite (s.readReg rs1)) := rfl

end Sys2Proof.Machine
end

