-- ==== Sys2Proof/Laws/State.lean ====
section
/-! SUPPORT. One lemma for each field of State under each named update, and the accessors over the updates. -/

namespace Sys2Proof.Machine

@[simp] theorem writeReg_x (s : State) (r : Reg) (v : Word) : (s.writeReg r v).x = if r = 0 then s.x else s.x.set r v := rfl
@[simp] theorem writeReg_pc (s : State) (r : Reg) (v : Word) : (s.writeReg r v).pc = s.pc := rfl
@[simp] theorem writeReg_mem (s : State) (r : Reg) (v : Word) : (s.writeReg r v).mem = s.mem := rfl
@[simp] theorem writeReg_halted (s : State) (r : Reg) (v : Word) : (s.writeReg r v).halted = s.halted := rfl
@[simp] theorem writeReg_trap (s : State) (r : Reg) (v : Word) : (s.writeReg r v).trap = s.trap := rfl
@[simp] theorem writeReg_started (s : State) (r : Reg) (v : Word) : (s.writeReg r v).started = s.started := rfl
@[simp] theorem writeReg_cursor (s : State) (r : Reg) (v : Word) : (s.writeReg r v).cursor = s.cursor := rfl
@[simp] theorem writeReg_out (s : State) (r : Reg) (v : Word) : (s.writeReg r v).out = s.out := rfl
@[simp] theorem writeReg_params (s : State) (r : Reg) (v : Word) : (s.writeReg r v).params = s.params := rfl

@[simp] theorem setPc_x (s : State) (p : Word) : (s.setPc p).x = s.x := rfl
@[simp] theorem setPc_pc (s : State) (p : Word) : (s.setPc p).pc = p := rfl
@[simp] theorem setPc_mem (s : State) (p : Word) : (s.setPc p).mem = s.mem := rfl
@[simp] theorem setPc_halted (s : State) (p : Word) : (s.setPc p).halted = s.halted := rfl
@[simp] theorem setPc_trap (s : State) (p : Word) : (s.setPc p).trap = s.trap := rfl
@[simp] theorem setPc_started (s : State) (p : Word) : (s.setPc p).started = s.started := rfl
@[simp] theorem setPc_cursor (s : State) (p : Word) : (s.setPc p).cursor = s.cursor := rfl
@[simp] theorem setPc_out (s : State) (p : Word) : (s.setPc p).out = s.out := rfl
@[simp] theorem setPc_params (s : State) (p : Word) : (s.setPc p).params = s.params := rfl

@[simp] theorem advance_x (s : State) : (s.advance).x = s.x := rfl
@[simp] theorem advance_pc (s : State) : (s.advance).pc = s.pc + 1 := rfl
@[simp] theorem advance_mem (s : State) : (s.advance).mem = s.mem := rfl
@[simp] theorem advance_halted (s : State) : (s.advance).halted = s.halted := rfl
@[simp] theorem advance_trap (s : State) : (s.advance).trap = s.trap := rfl
@[simp] theorem advance_started (s : State) : (s.advance).started = true := rfl
@[simp] theorem advance_cursor (s : State) : (s.advance).cursor = s.cursor := rfl
@[simp] theorem advance_out (s : State) : (s.advance).out = s.out := rfl
@[simp] theorem advance_params (s : State) : (s.advance).params = s.params := rfl

@[simp] theorem halt_x (s : State) : (s.halt).x = s.x := rfl
@[simp] theorem halt_pc (s : State) : (s.halt).pc = s.pc := rfl
@[simp] theorem halt_mem (s : State) : (s.halt).mem = s.mem := rfl
@[simp] theorem halt_halted (s : State) : (s.halt).halted = true := rfl
@[simp] theorem halt_trap (s : State) : (s.halt).trap = s.trap := rfl
@[simp] theorem halt_started (s : State) : (s.halt).started = s.started := rfl
@[simp] theorem halt_cursor (s : State) : (s.halt).cursor = s.cursor := rfl
@[simp] theorem halt_out (s : State) : (s.halt).out = s.out := rfl
@[simp] theorem halt_params (s : State) : (s.halt).params = s.params := rfl

@[simp] theorem takeTrap_x (s : State) (t : Trap) : (s.takeTrap t).x = s.x := rfl
@[simp] theorem takeTrap_pc (s : State) (t : Trap) : (s.takeTrap t).pc = s.pc := rfl
@[simp] theorem takeTrap_mem (s : State) (t : Trap) : (s.takeTrap t).mem = s.mem := rfl
@[simp] theorem takeTrap_halted (s : State) (t : Trap) : (s.takeTrap t).halted = true := rfl
@[simp] theorem takeTrap_trap (s : State) (t : Trap) : (s.takeTrap t).trap = some t := rfl
@[simp] theorem takeTrap_started (s : State) (t : Trap) : (s.takeTrap t).started = true := rfl
@[simp] theorem takeTrap_cursor (s : State) (t : Trap) : (s.takeTrap t).cursor = s.cursor := rfl
@[simp] theorem takeTrap_out (s : State) (t : Trap) : (s.takeTrap t).out = s.out := rfl
@[simp] theorem takeTrap_params (s : State) (t : Trap) : (s.takeTrap t).params = s.params := rfl

@[simp] theorem stopAtInvalid_x (s : State) : (s.stopAtInvalid).x = s.x := rfl
@[simp] theorem stopAtInvalid_pc (s : State) : (s.stopAtInvalid).pc = s.pc := rfl
@[simp] theorem stopAtInvalid_mem (s : State) : (s.stopAtInvalid).mem = s.mem := rfl
@[simp] theorem stopAtInvalid_halted (s : State) : (s.stopAtInvalid).halted = true := rfl
@[simp] theorem stopAtInvalid_trap (s : State) : (s.stopAtInvalid).trap = s.trap := rfl
@[simp] theorem stopAtInvalid_started (s : State) : (s.stopAtInvalid).started = true := rfl
@[simp] theorem stopAtInvalid_cursor (s : State) : (s.stopAtInvalid).cursor = s.cursor := rfl
@[simp] theorem stopAtInvalid_out (s : State) : (s.stopAtInvalid).out = s.out := rfl
@[simp] theorem stopAtInvalid_params (s : State) : (s.stopAtInvalid).params = s.params := rfl

@[simp] theorem outWrite_x (s : State) (v : Word) : (s.outWrite v).x = s.x := rfl
@[simp] theorem outWrite_pc (s : State) (v : Word) : (s.outWrite v).pc = s.pc := rfl
@[simp] theorem outWrite_mem (s : State) (v : Word) : (s.outWrite v).mem = s.mem := rfl
@[simp] theorem outWrite_halted (s : State) (v : Word) : (s.outWrite v).halted = s.halted := rfl
@[simp] theorem outWrite_trap (s : State) (v : Word) : (s.outWrite v).trap = s.trap := rfl
@[simp] theorem outWrite_started (s : State) (v : Word) : (s.outWrite v).started = s.started := rfl
@[simp] theorem outWrite_cursor (s : State) (v : Word) : (s.outWrite v).cursor = s.cursor := rfl
@[simp] theorem outWrite_out (s : State) (v : Word) : (s.outWrite v).out = s.out ++ [v] := rfl
@[simp] theorem outWrite_params (s : State) (v : Word) : (s.outWrite v).params = s.params := rfl

/-! ### Registers -/

@[simp] theorem readReg_zero (s : State) : s.readReg 0 = 0 := rfl

/-- The register file read over a write: x0 stays 0, the written register holds the value, the others are unchanged. -/
theorem readReg_writeReg (s : State) (r q : Reg) (v : Word) :
    (s.writeReg r v).readReg q = if q = r ∧ q ≠ 0 then v else s.readReg q := by
  unfold State.readReg State.writeReg
  by_cases hq : q = 0
  · simp [hq]
  · by_cases hr : r = 0
    · subst hr
      simp [hq]
    · by_cases h : q = r
      · subst h
        simp [hq]
      · have hv : (r : Nat) ≠ (q : Nat) := fun e => h (Fin.ext e.symm)
        simp [hq, hr, h, Vector.getElem_set_ne _ _ hv]

/-- A write to x0 is discarded. -/
@[simp] theorem writeReg_zero (s : State) (v : Word) : s.writeReg 0 v = s := rfl

/-- No write reaches cell 0 of the register file. -/
@[simp] theorem writeReg_cell_zero (s : State) (r : Reg) (v : Word) : (s.writeReg r v).x[0] = s.x[0] := by
  unfold State.writeReg
  by_cases hr : r = 0
  · simp [hr]
  · have hv : (r : Nat) ≠ 0 := fun e => hr (Fin.ext e)
    simp [hr, Vector.getElem_set_ne _ _ hv]

@[simp] theorem readReg_setPc (s : State) (p : Word) (q : Reg) : (s.setPc p).readReg q = s.readReg q := rfl
@[simp] theorem readReg_advance (s : State) (q : Reg) : (s.advance).readReg q = s.readReg q := rfl
@[simp] theorem readReg_halt (s : State) (q : Reg) : (s.halt).readReg q = s.readReg q := rfl
@[simp] theorem readReg_takeTrap (s : State) (t : Trap) (q : Reg) : (s.takeTrap t).readReg q = s.readReg q := rfl
@[simp] theorem readReg_stopAtInvalid (s : State) (q : Reg) : (s.stopAtInvalid).readReg q = s.readReg q := rfl
@[simp] theorem readReg_outWrite (s : State) (v : Word) (q : Reg) : (s.outWrite v).readReg q = s.readReg q := rfl

/-- A memory replacement leaves the registers alone. -/
@[simp] theorem readReg_withMem (s : State) (m : Memory) (q : Reg) :
    ({ s with mem := m } : State).readReg q = s.readReg q := rfl

/-! ### The address check reads MEM_WORDS alone -/

@[simp] theorem inMemory_writeReg (s : State) (r : Reg) (v : Word) (a : Word) : (s.writeReg r v).inMemory a = s.inMemory a := rfl
@[simp] theorem inMemory_setPc (s : State) (p : Word) (a : Word) : (s.setPc p).inMemory a = s.inMemory a := rfl
@[simp] theorem inMemory_advance (s : State) (a : Word) : (s.advance).inMemory a = s.inMemory a := rfl
@[simp] theorem inMemory_halt (s : State) (a : Word) : (s.halt).inMemory a = s.inMemory a := rfl
@[simp] theorem inMemory_takeTrap (s : State) (t : Trap) (a : Word) : (s.takeTrap t).inMemory a = s.inMemory a := rfl
@[simp] theorem inMemory_stopAtInvalid (s : State) (a : Word) : (s.stopAtInvalid).inMemory a = s.inMemory a := rfl
@[simp] theorem inMemory_outWrite (s : State) (v : Word) (a : Word) : (s.outWrite v).inMemory a = s.inMemory a := rfl

theorem inMemory_iff (s : State) (a : Word) : s.inMemory a = true ↔ uint a < s.params.memWords := by
  simp [State.inMemory]

/-! ### The input stream -/

/-- Everything `InRead()` can do: a code with the cursor one on, or 0 past the end with nothing changed. -/
theorem inRead_cases (s : State) :
    (∃ v, s.params.input[s.cursor]? = some v ∧ s.inRead = (v, { s with cursor := s.cursor + 1 })) ∨
      (s.params.input.length ≤ s.cursor ∧ s.inRead = (0, s)) := by
  unfold State.inRead
  cases h : s.params.input[s.cursor]? with
  | some v => exact Or.inl ⟨v, rfl, rfl⟩
  | none => exact Or.inr ⟨List.getElem?_eq_none_iff.mp h, rfl⟩

@[simp] theorem inRead_x (s : State) : s.inRead.2.x = s.x := by
  unfold State.inRead; split <;> rfl

@[simp] theorem inRead_pc (s : State) : s.inRead.2.pc = s.pc := by
  unfold State.inRead; split <;> rfl

@[simp] theorem inRead_mem (s : State) : s.inRead.2.mem = s.mem := by
  unfold State.inRead; split <;> rfl

@[simp] theorem inRead_halted (s : State) : s.inRead.2.halted = s.halted := by
  unfold State.inRead; split <;> rfl

@[simp] theorem inRead_trap (s : State) : s.inRead.2.trap = s.trap := by
  unfold State.inRead; split <;> rfl

@[simp] theorem inRead_started (s : State) : s.inRead.2.started = s.started := by
  unfold State.inRead; split <;> rfl

@[simp] theorem inRead_out (s : State) : s.inRead.2.out = s.out := by
  unfold State.inRead; split <;> rfl

@[simp] theorem inRead_params (s : State) : s.inRead.2.params = s.params := by
  unfold State.inRead; split <;> rfl

@[simp] theorem readReg_inRead (s : State) (q : Reg) : s.inRead.2.readReg q = s.readReg q := by
  simp [State.readReg]

/-- The cursor never passes the end of the input. -/
theorem inRead_cursor_le (s : State) (h : s.cursor ≤ s.params.input.length) :
    s.inRead.2.cursor ≤ s.params.input.length := by
  rcases inRead_cases s with ⟨v, hv, e⟩ | ⟨_, e⟩
  · have : s.cursor < s.params.input.length := (List.getElem?_eq_some_iff.mp hv).1
    simp [e]
    omega
  · simpa [e] using h

end Sys2Proof.Machine
end

