-- ==== Sys2Proof/Laws/Memory.lean ====
section
/-! SUPPORT. Memory: reads over writes, and the canonical form, which every operation keeps. -/

namespace Sys2Proof.Machine

/-- Lowering the bound keeps the form. -/
theorem wfAbove_mono {m : Memory} {n k : Nat} (h : Memory.wfAbove n m = true) (hk : k ≤ n) :
    Memory.wfAbove k m = true := by
  cases m with
  | nil => rfl
  | cons c rest =>
    simp only [Memory.wfAbove, Bool.and_eq_true, decide_eq_true_eq] at h ⊢
    exact ⟨⟨by omega, h.1.2⟩, h.2⟩

/-- A slot below the bound is not listed, so it reads 0. -/
theorem read_below {m : Memory} {n a : Nat} (h : Memory.wfAbove n m = true) (ha : a < n) : m.read a = 0 := by
  induction m generalizing n with
  | nil => rfl
  | cons c rest ih =>
    simp only [Memory.wfAbove, Bool.and_eq_true, decide_eq_true_eq] at h
    have hne : a ≠ c.1 := by omega
    simp only [Memory.read, if_neg hne]
    exact ih h.2 (by omega)

/-- A write leaves every other slot alone, whatever the form of the list. -/
theorem read_write_ne (m : Memory) {a b : Nat} (v : Word) (h : b ≠ a) : (m.write a v).read b = m.read b := by
  induction m with
  | nil =>
    unfold Memory.write
    split <;> simp [Memory.read, h]
  | cons c rest ih =>
    unfold Memory.write
    split
    · split <;> simp [Memory.read, h]
    · split
      · rename_i e
        subst e
        split <;> simp [Memory.read, h]
      · simp only [Memory.read, ih]

/-- A canonical memory reads back what was written. -/
theorem read_write_self {m : Memory} {n : Nat} (hm : Memory.wfAbove n m = true) (a : Nat) (v : Word) :
    (m.write a v).read a = v := by
  induction m generalizing n with
  | nil =>
    unfold Memory.write
    split
    · rename_i e; rw [e]; rfl
    · simp [Memory.read]
  | cons c rest ih =>
    have hc := hm
    simp only [Memory.wfAbove, Bool.and_eq_true, decide_eq_true_eq] at hc
    unfold Memory.write
    split
    · rename_i hlt
      split
      · rename_i e
        have hne : a ≠ c.1 := by omega
        simp only [Memory.read, if_neg hne, e]
        exact read_below hc.2 (by omega)
      · simp [Memory.read]
    · split
      · rename_i e
        subst e
        split
        · rename_i e
          rw [e]
          exact read_below hc.2 (by omega)
        · simp [Memory.read]
      · rename_i hne
        simp only [Memory.read, if_neg hne]
        exact ih hc.2

/-- The one spec of a write: the slot holds the word, every other slot is as before. -/
theorem read_write {m : Memory} (hm : m.wf = true) (a b : Nat) (v : Word) :
    (m.write a v).read b = if b = a then v else m.read b := by
  by_cases h : b = a
  · subst h
    simp [read_write_self hm]
  · simp [h, read_write_ne m v h]

/-- A write keeps the form above any bound that the slot respects. -/
theorem wfAbove_write {m : Memory} {n : Nat} (hm : Memory.wfAbove n m = true) {a : Nat} (ha : n ≤ a) (v : Word) :
    Memory.wfAbove n (m.write a v) = true := by
  induction m generalizing n with
  | nil =>
    unfold Memory.write
    split
    · rfl
    · rename_i h
      simpa [Memory.wfAbove, ha] using h
  | cons c rest ih =>
    have hc := hm
    simp only [Memory.wfAbove, Bool.and_eq_true, decide_eq_true_eq] at hc
    unfold Memory.write
    split
    · rename_i hlt
      split
      · exact hm
      · rename_i hv
        simp only [Memory.wfAbove, Bool.and_eq_true, decide_eq_true_eq]
        exact ⟨⟨ha, hv⟩, ⟨by omega, hc.1.2⟩, hc.2⟩
    · split
      · rename_i e
        subst e
        split
        · exact wfAbove_mono hc.2 (by omega)
        · rename_i hv
          simp only [Memory.wfAbove, Bool.and_eq_true, decide_eq_true_eq]
          exact ⟨⟨ha, hv⟩, hc.2⟩
      · simp only [Memory.wfAbove, Bool.and_eq_true, decide_eq_true_eq]
        exact ⟨hc.1, ih hc.2 (by omega)⟩

/-- A write keeps the canonical form. -/
theorem wf_write {m : Memory} (hm : m.wf = true) (a : Nat) (v : Word) : (m.write a v).wf = true :=
  wfAbove_write hm (Nat.zero_le a) v

/-- A write inside memory keeps every listed slot inside memory. -/
theorem within_write {m : Memory} {k : Nat} (hm : m.within k = true) {a : Nat} (ha : a < k) (v : Word) :
    (m.write a v).within k = true := by
  simp only [Memory.within, List.all_eq_true, decide_eq_true_eq] at hm ⊢
  induction m with
  | nil =>
    unfold Memory.write
    split <;> simp [ha]
  | cons c rest ih =>
    have hrest := ih fun x hx => hm x (List.mem_cons_of_mem c hx)
    have hhead := hm c List.mem_cons_self
    unfold Memory.write
    intro x hx
    split at hx
    · split at hx
      · exact hm x hx
      · rcases List.mem_cons.mp hx with rfl | hx
        · exact ha
        · exact hm x hx
    · split at hx
      · split at hx
        · exact hm x (List.mem_cons_of_mem c hx)
        · rcases List.mem_cons.mp hx with rfl | hx
          · exact ha
          · exact hm x (List.mem_cons_of_mem c hx)
      · rcases List.mem_cons.mp hx with rfl | hx
        · exact hhead
        · exact hrest x hx

/-- Writing an image keeps the canonical form. -/
theorem wf_writeImage {m : Memory} (hm : m.wf = true) (a : Nat) (ws : List Word) : (m.writeImage a ws).wf = true := by
  induction ws generalizing m a with
  | nil => exact hm
  | cons w rest ih => exact ih (wf_write hm a w) (a + 1)

/-- Writing an image that ends inside memory keeps every listed slot inside memory. -/
theorem within_writeImage {m : Memory} {k : Nat} (hm : m.within k = true) {a : Nat} {ws : List Word}
    (h : a + ws.length ≤ k) : (m.writeImage a ws).within k = true := by
  induction ws generalizing m a with
  | nil => exact hm
  | cons w rest ih =>
    simp only [List.length_cons] at h
    exact ih (within_write hm (by omega) w) (by omega)

/-- Two canonical memories above one bound that read alike everywhere are equal. -/
theorem eq_of_read_eq_above {m k : Memory} {n : Nat} (hm : Memory.wfAbove n m = true) (hk : Memory.wfAbove n k = true)
    (h : ∀ a, m.read a = k.read a) : m = k := by
  induction m generalizing k n with
  | nil =>
    cases k with
    | nil => rfl
    | cons d rest =>
      simp only [Memory.wfAbove, Bool.and_eq_true, decide_eq_true_eq] at hk
      have := h d.1
      simp only [Memory.read, if_true] at this
      exact absurd this.symm hk.1.2
  | cons c mrest ih =>
    have hm' := hm
    simp only [Memory.wfAbove, Bool.and_eq_true, decide_eq_true_eq] at hm'
    cases k with
    | nil =>
      have := h c.1
      simp only [Memory.read, if_true] at this
      exact absurd this hm'.1.2
    | cons d krest =>
      have hk' := hk
      simp only [Memory.wfAbove, Bool.and_eq_true, decide_eq_true_eq] at hk'
      have hkeys : c.1 = d.1 := by
        rcases Nat.lt_trichotomy c.1 d.1 with hlt | heq | hgt
        · have h1 := h c.1
          have hne : c.1 ≠ d.1 := by omega
          simp only [Memory.read, if_true, if_neg hne] at h1
          rw [read_below hk'.2 (by omega)] at h1
          exact absurd h1 hm'.1.2
        · exact heq
        · have h1 := h d.1
          have hne : d.1 ≠ c.1 := by omega
          simp only [Memory.read, if_true, if_neg hne] at h1
          rw [read_below hm'.2 (by omega)] at h1
          exact absurd h1.symm hk'.1.2
      have hvals : c.2 = d.2 := by
        have h1 := h c.1
        simpa only [Memory.read, if_true, hkeys] using h1
      have hrest : mrest = krest := by
        refine ih hm'.2 (hkeys ▸ hk'.2) fun a => ?_
        by_cases ha : a = c.1
        · rw [read_below hm'.2 (by omega), read_below hk'.2 (by omega)]
        · have h1 := h a
          have ha' : a ≠ d.1 := hkeys ▸ ha
          simpa only [Memory.read, if_neg ha, if_neg ha'] using h1
      rw [hrest, show c = d from Prod.ext hkeys hvals]

/-- Equal memories are equal data: canonical memories that read alike are the same list. -/
theorem eq_of_read_eq {m k : Memory} (hm : m.wf = true) (hk : k.wf = true) (h : ∀ a, m.read a = k.read a) : m = k :=
  eq_of_read_eq_above hm hk h

end Sys2Proof.Machine
end

