-- ==== Sys2Proof/Laws/OpcodeMap.lean ====
section
/-! SUPPORT. The rows of an OPCODE_MAP, and the check that gives the condition of 00_scope.md R5 (no word is accepted by two
rows), which the default passes. -/

namespace Sys2Proof

/-- A table gives back the numbers it was made of. -/
@[simp] theorem row_ofCodes (f : Mnemonic → Codes) (m : Mnemonic) : (OpcodeMap.ofCodes f).row m = f m := by
  cases m <;> rfl

/-- The default table's rows. -/
@[simp] theorem row_opcodeMap (m : Mnemonic) : opcodeMap.row m = defaultCodes m := row_ofCodes defaultCodes m

/-- What acceptance says of the three code fields. -/
theorem accepts_codes {map : OpcodeMap} {m : Mnemonic} {w : Word} (h : map.accepts m w = true) :
    field w 0 7 = (map.row m).opcode.toNat ∧ (m.format.fixesFunct3 = true → field w 12 3 = (map.row m).funct3.toNat) ∧
      (m.format.fixesFunct7 = true → field w 25 7 = (map.row m).funct7.toNat) := by
  unfold OpcodeMap.accepts at h
  cases hf : m.format <;> simp_all [Format.fixesFunct3, Format.fixesFunct7]

/-- Every row stands in the list of rows. -/
theorem mem_all (m : Mnemonic) : m ∈ Mnemonic.all := by cases m <;> decide

/-- A table that passes the check meets the condition of R5. -/
theorem valid_of_check {map : OpcodeMap} (h : map.check = true) : map.Valid := by
  intro m n w hm hn
  have hrow := List.all_eq_true.mp (List.all_eq_true.mp h m (mem_all m)) n (mem_all n)
  obtain ⟨ho, h3, h7⟩ := accepts_codes hm
  obtain ⟨ko, k3, k7⟩ := accepts_codes hn
  simp only [OpcodeMap.rowsDiffer, Bool.or_eq_true, Bool.and_eq_true, beq_iff_eq, bne_iff_ne] at hrow
  rcases hrow with h | (h | ⟨⟨hf, kf⟩, h⟩) | ⟨⟨hf, kf⟩, h⟩
  · exact h
  · exact absurd (BitVec.eq_of_toNat_eq (ho.symm.trans ko)) h
  · exact absurd (BitVec.eq_of_toNat_eq ((h3 hf).symm.trans (k3 kf))) h
  · exact absurd (BitVec.eq_of_toNat_eq ((h7 hf).symm.trans (k7 kf))) h

/-- The default table passes the check. -/
theorem opcodeMap_check : opcodeMap.check = true := by decide +kernel

/-- The default table meets the condition of R5. -/
theorem opcodeMap_valid : opcodeMap.Valid := valid_of_check opcodeMap_check

/-- A row that the classifier finds accepts the word. -/
theorem accepts_of_classify {map : OpcodeMap} {w : Word} {m : Mnemonic} (h : classify map w = some m) :
    map.accepts m w = true := by
  unfold classify at h
  exact List.find?_some (p := fun m => map.accepts m w) h

/-- Under a valid table the classifier finds exactly the row that accepts the word. -/
theorem classify_eq_some {map : OpcodeMap} (hv : map.Valid) (w : Word) (m : Mnemonic) :
    classify map w = some m ↔ map.accepts m w = true := by
  refine ⟨accepts_of_classify, fun hm => ?_⟩
  cases hc : classify map w with
  | none => exact absurd hm (List.find?_eq_none.mp hc m (mem_all m))
  | some n => rw [hv n m w (accepts_of_classify hc) hm]

/-- Everything the decoder can answer: the classified row built from its operands, or Invalid where no row accepts. -/
theorem decodeWith_cases (map : OpcodeMap) (w : Word) :
    (∃ m, classify map w = some m ∧ decodeWith map w = .ok (m.build (unpack m.format w))) ∨
      (classify map w = none ∧ ∃ why, decodeWith map w = .error why) := by
  unfold decodeWith
  cases hc : classify map w with
  | none => exact Or.inr ⟨rfl, _, rfl⟩
  | some m => exact Or.inl ⟨m, rfl, rfl⟩

end Sys2Proof
end

