-- ==== Sys2Proof/Laws/Ops.lean ====
section
/-! SUPPORT. For each shared operation, what it can do, said once. -/

namespace Sys2Proof.Machine

/-- `MemRead` answers the cell's word exactly below MEM_WORDS. -/
theorem memRead_eq_some (s : State) (a v : Word) :
    s.memRead a = some v ↔ uint a < s.params.memWords ∧ v = s.mem.read (uint a) := by
  unfold State.memRead
  by_cases h : s.inMemory a = true
  · simp [h, (inMemory_iff s a).mp h, eq_comm]
  · have := mt (inMemory_iff s a).mpr h
    simp only [h, Bool.false_eq_true, if_false]
    exact ⟨fun e => (Option.some_ne_none v e.symm).elim, fun e => (this e.1).elim⟩

/-- `MemRead` answers nothing exactly at or above MEM_WORDS. -/
theorem memRead_eq_none (s : State) (a : Word) : s.memRead a = none ↔ s.params.memWords ≤ uint a := by
  unfold State.memRead
  by_cases h : s.inMemory a = true
  · have := (inMemory_iff s a).mp h
    simp [h]
    omega
  · have := mt (inMemory_iff s a).mpr h
    simp [h]
    omega

/-- Everything `MemWrite` can do. -/
theorem memWrite_cases (s : State) (a v : Word) :
    (uint a < s.params.memWords ∧ s.memWrite a v = some { s with mem := s.mem.write (uint a) v }) ∨
      (s.params.memWords ≤ uint a ∧ s.memWrite a v = none) := by
  unfold State.memWrite
  by_cases h : s.inMemory a = true
  · exact Or.inl ⟨(inMemory_iff s a).mp h, by simp [h]⟩
  · have := mt (inMemory_iff s a).mpr h
    exact Or.inr ⟨by omega, by simp [h]⟩

/-- Everything an ALU instruction can do: the value into rd, or the trap. -/
theorem aluInto_cases (op : AluOp) (rd : Reg) (a b : Word) (s : State) :
    (∃ v, alu s.params.divZeroPolicy op a b = .value v ∧ aluInto op rd a b s = .next (s.advance.writeReg rd v)) ∨
      (alu s.params.divZeroPolicy op a b = .divideByZero ∧
        aluInto op rd a b s = .next (s.takeTrap ⟨.divideByZero, s.pc⟩)) := by
  unfold aluInto
  cases h : alu s.params.divZeroPolicy op a b with
  | value v => exact Or.inl ⟨v, rfl, rfl⟩
  | divideByZero => exact Or.inr ⟨rfl, rfl⟩

/-- The ALU's fault is a zero divisor of DIV or REM under the policy `trap`, and nothing else. -/
theorem alu_fault_iff (policy : DivZeroPolicy) (op : AluOp) (a b : Word) :
    alu policy op a b = .divideByZero ↔ (op = .div ∨ op = .rem) ∧ b = 0 ∧ policy = .trap := by
  cases op <;> simp only [alu, guardZero, reduceCtorEq, false_and, or_self, or_false, or_true, true_and]
  all_goals
    by_cases hb : b = 0
    · cases policy <;> simp [hb]
    · simp only [hb, if_false, false_and, reduceCtorEq]

/-- Everything a load can do. -/
theorem execLw_cases (rd rs1 : Reg) (imm : Int) (s : State) :
    (uint (effectiveAddress s rs1 imm) < s.params.memWords ∧
        execLw rd rs1 imm s = .next (s.advance.writeReg rd (s.mem.read (uint (effectiveAddress s rs1 imm))))) ∨
      (s.params.memWords ≤ uint (effectiveAddress s rs1 imm) ∧
        execLw rd rs1 imm s = .next (s.takeTrap ⟨.loadOutOfRange, effectiveAddress s rs1 imm⟩)) := by
  unfold execLw
  cases h : s.memRead (effectiveAddress s rs1 imm) with
  | some v =>
    obtain ⟨hin, rfl⟩ := (memRead_eq_some s _ v).mp h
    exact Or.inl ⟨hin, rfl⟩
  | none => exact Or.inr ⟨(memRead_eq_none s _).mp h, rfl⟩

/-- Everything a store can do. -/
theorem execSw_cases (rs2 rs1 : Reg) (imm : Int) (s : State) :
    (uint (effectiveAddress s rs1 imm) < s.params.memWords ∧
        execSw rs2 rs1 imm s =
          .next { s.advance with mem := s.mem.write (uint (effectiveAddress s rs1 imm)) (s.readReg rs2) }) ∨
      (s.params.memWords ≤ uint (effectiveAddress s rs1 imm) ∧
        execSw rs2 rs1 imm s = .next (s.takeTrap ⟨.storeOutOfRange, effectiveAddress s rs1 imm⟩)) := by
  unfold execSw
  rcases memWrite_cases s.advance (effectiveAddress s rs1 imm) (s.readReg rs2) with ⟨hin, h⟩ | ⟨hout, h⟩
  · exact Or.inl ⟨hin, by rw [h]; rfl⟩
  · exact Or.inr ⟨hout, by rw [h]⟩

/-- Everything a branch can do. -/
theorem branch_cases (op : BranchOp) (rs1 rs2 : Reg) (off : Int) (s : State) :
    (branchTaken op (s.readReg rs1) (s.readReg rs2) = true ∧
        branch op rs1 rs2 off s = .next (s.advance.setPc (relativeTarget s off))) ∨
      (branchTaken op (s.readReg rs1) (s.readReg rs2) = false ∧ branch op rs1 rs2 off s = .next s.advance) := by
  unfold branch
  cases h : branchTaken op (s.readReg rs1) (s.readReg rs2)
  · exact Or.inr ⟨rfl, by simp⟩
  · exact Or.inl ⟨rfl, by simp⟩

/-- Everything a fetch can find. -/
theorem fetch_cases (s : State) :
    (s.params.memWords ≤ uint s.pc ∧ fetch s = .outOfRange) ∨
      (uint s.pc < s.params.memWords ∧ ∃ why, decodeWith s.params.opcodeMap (s.mem.read (uint s.pc)) = .error why ∧ fetch s = .invalid why) ∨
      (uint s.pc < s.params.memWords ∧ ∃ i, decodeWith s.params.opcodeMap (s.mem.read (uint s.pc)) = .ok i ∧ fetch s = .instr i) := by
  unfold fetch
  cases h : s.memRead s.pc with
  | none => exact Or.inl ⟨(memRead_eq_none s _).mp h, rfl⟩
  | some w =>
    obtain ⟨hin, rfl⟩ := (memRead_eq_some s _ w).mp h
    cases hd : decodeWith s.params.opcodeMap (s.mem.read (uint s.pc)) with
    | error why => exact Or.inr (Or.inl ⟨hin, why, rfl, by simp only [hd]⟩)
    | ok i => exact Or.inr (Or.inr ⟨hin, i, rfl, by simp only [hd]⟩)

/-- Everything a step can do. -/
theorem step_cases (s : State) :
    (s.halted = true ∧ step s = .next s) ∨
      (s.halted = false ∧ fetch s = .outOfRange ∧ step s = .next (s.takeTrap ⟨.fetchOutOfRange, s.pc⟩)) ∨
      (s.halted = false ∧ (∃ why, fetch s = .invalid why) ∧ step s = .next s.stopAtInvalid) ∨
      (s.halted = false ∧ ∃ i, fetch s = .instr i ∧ step s = exec i s) := by
  unfold step cycle
  cases hh : s.halted
  · cases hf : fetch s with
    | outOfRange => exact Or.inr (Or.inl ⟨rfl, rfl, rfl⟩)
    | invalid why => exact Or.inr (Or.inr (Or.inl ⟨rfl, ⟨why, rfl⟩, rfl⟩))
    | instr i => exact Or.inr (Or.inr (Or.inr ⟨rfl, i, rfl, rfl⟩))
  · exact Or.inl ⟨rfl, by simp⟩

end Sys2Proof.Machine
end

