-- ==== Sys2Proof/Laws/PerInstr.lean ====
section
/-! SUPPORT. Per-instruction family BuildOperands: an instruction is its row built from its operands, so that the encoder
(which reads row and operands) and the decoder (which builds from them) speak of the same term. -/

/-- The family's statement about one instruction. -/
def Sys2Proof.Laws.BuildOperands.Statement (i : Sys2Proof.Instr) : Prop := i.mnemonic.build i.operands = i

namespace Sys2Proof.Laws.BuildOperands

theorem add (rd rs1 rs2 : Reg) : Statement (.add rd rs1 rs2) := rfl

theorem sub (rd rs1 rs2 : Reg) : Statement (.sub rd rs1 rs2) := rfl

theorem and (rd rs1 rs2 : Reg) : Statement (.and rd rs1 rs2) := rfl

theorem or (rd rs1 rs2 : Reg) : Statement (.or rd rs1 rs2) := rfl

theorem xor (rd rs1 rs2 : Reg) : Statement (.xor rd rs1 rs2) := rfl

theorem sll (rd rs1 rs2 : Reg) : Statement (.sll rd rs1 rs2) := rfl

theorem srl (rd rs1 rs2 : Reg) : Statement (.srl rd rs1 rs2) := rfl

theorem sra (rd rs1 rs2 : Reg) : Statement (.sra rd rs1 rs2) := rfl

theorem slt (rd rs1 rs2 : Reg) : Statement (.slt rd rs1 rs2) := rfl

theorem seq (rd rs1 rs2 : Reg) : Statement (.seq rd rs1 rs2) := rfl

theorem sne (rd rs1 rs2 : Reg) : Statement (.sne rd rs1 rs2) := rfl

theorem sge (rd rs1 rs2 : Reg) : Statement (.sge rd rs1 rs2) := rfl

theorem mul (rd rs1 rs2 : Reg) : Statement (.mul rd rs1 rs2) := rfl

theorem div (rd rs1 rs2 : Reg) : Statement (.div rd rs1 rs2) := rfl

theorem rem (rd rs1 rs2 : Reg) : Statement (.rem rd rs1 rs2) := rfl

theorem addi (rd rs1 : Reg) (imm : Int) : Statement (.addi rd rs1 imm) := rfl

theorem subi (rd rs1 : Reg) (imm : Int) : Statement (.subi rd rs1 imm) := rfl

theorem andi (rd rs1 : Reg) (imm : Int) : Statement (.andi rd rs1 imm) := rfl

theorem ori (rd rs1 : Reg) (imm : Int) : Statement (.ori rd rs1 imm) := rfl

theorem xori (rd rs1 : Reg) (imm : Int) : Statement (.xori rd rs1 imm) := rfl

theorem slli (rd rs1 : Reg) (shamt : Fin 32) : Statement (.slli rd rs1 shamt) := by
  simp [Statement, Instr.mnemonic, Instr.operands, Mnemonic.build]

theorem srli (rd rs1 : Reg) (shamt : Fin 32) : Statement (.srli rd rs1 shamt) := by
  simp [Statement, Instr.mnemonic, Instr.operands, Mnemonic.build]

theorem srai (rd rs1 : Reg) (shamt : Fin 32) : Statement (.srai rd rs1 shamt) := by
  simp [Statement, Instr.mnemonic, Instr.operands, Mnemonic.build]

theorem slti (rd rs1 : Reg) (imm : Int) : Statement (.slti rd rs1 imm) := rfl

theorem seqi (rd rs1 : Reg) (imm : Int) : Statement (.seqi rd rs1 imm) := rfl

theorem snei (rd rs1 : Reg) (imm : Int) : Statement (.snei rd rs1 imm) := rfl

theorem sgei (rd rs1 : Reg) (imm : Int) : Statement (.sgei rd rs1 imm) := rfl

theorem muli (rd rs1 : Reg) (imm : Int) : Statement (.muli rd rs1 imm) := rfl

theorem divi (rd rs1 : Reg) (imm : Int) : Statement (.divi rd rs1 imm) := rfl

theorem remi (rd rs1 : Reg) (imm : Int) : Statement (.remi rd rs1 imm) := rfl

theorem lui (rd : Reg) (u20 : Nat) : Statement (.lui rd u20) := rfl

theorem lw (rd rs1 : Reg) (imm : Int) : Statement (.lw rd rs1 imm) := rfl

theorem sw (rs2 rs1 : Reg) (imm : Int) : Statement (.sw rs2 rs1 imm) := rfl

theorem beq (rs1 rs2 : Reg) (off : Int) : Statement (.beq rs1 rs2 off) := rfl

theorem bne (rs1 rs2 : Reg) (off : Int) : Statement (.bne rs1 rs2 off) := rfl

theorem blt (rs1 rs2 : Reg) (off : Int) : Statement (.blt rs1 rs2 off) := rfl

theorem bge (rs1 rs2 : Reg) (off : Int) : Statement (.bge rs1 rs2 off) := rfl

theorem jal (rd : Reg) (off : Int) : Statement (.jal rd off) := rfl

theorem jalr (rd rs1 : Reg) (imm : Int) : Statement (.jalr rd rs1 imm) := rfl

theorem ebreak : Statement .ebreak := rfl

theorem eread (rd : Reg) : Statement (.eread rd) := rfl

theorem ewrite (rs1 : Reg) : Statement (.ewrite rs1) := rfl

end Sys2Proof.Laws.BuildOperands
end

