-- ==== Sys2Proof/Tests/Slice0.lean ====
section
/-! SUPPORT. Own tests: the WellFormed smoke test, words of 95_test_vectors.md decoded, one-step tests from its tables, and
a witness for the hypotheses of every statement that has some. Expected values are the spec's, not the model's. -/

namespace Sys2Proof.Tests

open Sys2Proof Sys2Proof.Machine

/-! ### Well-formedness: each check refuses an ill-formed term -/

theorem test_ill_formed_imm_high : (Instr.addi 1 0 2048).wellFormed = false := by decide

theorem test_ill_formed_imm_low : (Instr.addi 1 0 (-2049)).wellFormed = false := by decide

theorem test_ill_formed_load_imm_high : (Instr.lw 1 2 2048).wellFormed = false := by decide

theorem test_ill_formed_store_imm_low : (Instr.sw 1 2 (-2049)).wellFormed = false := by decide

theorem test_ill_formed_jalr_imm_high : (Instr.jalr 1 2 2048).wellFormed = false := by decide

theorem test_ill_formed_branch_offset_high : (Instr.beq 0 0 2048).wellFormed = false := by decide

theorem test_ill_formed_branch_offset_low : (Instr.bge 0 0 (-2049)).wellFormed = false := by decide

theorem test_ill_formed_jal_offset_high : (Instr.jal 0 524288).wellFormed = false := by decide

theorem test_ill_formed_jal_offset_low : (Instr.jal 0 (-524289)).wellFormed = false := by decide

theorem test_ill_formed_u20_high : (Instr.lui 1 1048576).wellFormed = false := by decide

theorem test_well_formed_at_the_bounds :
    ([.addi 1 0 (-2048), .addi 1 0 2047, .sw 2 1 (-2048), .sw 2 1 2047, .beq 0 0 (-2048), .beq 0 0 2047, .jal 0 (-524288),
      .jal 0 524287, .lui 1 0, .lui 1 1048575, .slli 1 1 31] : List Instr).all Instr.wellFormed = true := by decide

/-! ### Encodings: 95_test_vectors.md 2.1, one word for each row, decoded and encoded -/

/-- Whether the word decodes to the instruction and the instruction encodes to the word. -/
def pairs (i : Instr) (w : Word) : Bool :=
  (decode w).toOption == some i && (encode i).toOption == some w && decodeTableWord 32 w.toNat == some i

theorem test_decode_register_register :
    ([(.add 3 1 2, 0x002081B3),
      (.sub 3 1 2, 0x402081B3),
      (.and 3 1 2, 0x0020F1B3),
      (.or 3 1 2, 0x0020E1B3),
      (.xor 3 1 2, 0x0020C1B3),
      (.sll 3 1 2, 0x002091B3),
      (.srl 3 1 2, 0x0020D1B3),
      (.sra 3 1 2, 0x4020D1B3),
      (.slt 3 1 2, 0x0020A1B3),
      (.seq 3 1 2, 0x202081B3),
      (.sne 3 1 2, 0x202091B3),
      (.sge 3 1 2, 0x2020D1B3),
      (.mul 3 1 2, 0x022081B3),
      (.div 3 1 2, 0x0220C1B3),
      (.rem 3 1 2, 0x0220E1B3)] : List (Instr × Word)).all
      (fun p => pairs p.1 p.2) = true := by decide

theorem test_decode_register_immediate :
    ([(.addi 3 1 (-1), 0xFFF08193),
      (.subi 3 1 (-1), 0xFFF0818B),
      (.andi 3 1 (-1), 0xFFF0F193),
      (.ori 3 1 (-1), 0xFFF0E193),
      (.xori 3 1 (-1), 0xFFF0C193),
      (.slli 3 1 4, 0x00409193),
      (.srli 3 1 4, 0x0040D193),
      (.srai 3 1 4, 0x4040D193),
      (.slti 3 1 (-1), 0xFFF0A193),
      (.seqi 3 1 (-1), 0xFFF0918B),
      (.snei 3 1 (-1), 0xFFF0A18B),
      (.sgei 3 1 (-1), 0xFFF0B18B),
      (.muli 3 1 (-1), 0xFFF0C18B),
      (.divi 3 1 (-1), 0xFFF0D18B),
      (.remi 3 1 (-1), 0xFFF0E18B)] : List (Instr × Word)).all
      (fun p => pairs p.1 p.2) = true := by decide

theorem test_decode_upper_load_store :
    ([(.lui 3 74565, 0x123451B7),
      (.lw 3 1 (-1), 0xFFF0A183),
      (.sw 2 1 (-1), 0xFE20AFA3)] : List (Instr × Word)).all
      (fun p => pairs p.1 p.2) = true := by decide

theorem test_decode_branches_jumps :
    ([(.beq 1 2 (-2), 0xFE208EE3),
      (.bne 1 2 (-2), 0xFE209EE3),
      (.blt 1 2 (-2), 0xFE20CEE3),
      (.bge 1 2 (-2), 0xFE20DEE3),
      (.jal 1 (-1), 0xFFFFF0EF),
      (.jalr 1 2 3, 0x003100E7)] : List (Instr × Word)).all
      (fun p => pairs p.1 p.2) = true := by decide

theorem test_decode_environment :
    ([(.ebreak, 0x00000073),
      (.eread 5, 0x020002F3),
      (.ewrite 5, 0x04028073)] : List (Instr × Word)).all
      (fun p => pairs p.1 p.2) = true := by decide

/-- 95_test_vectors.md 2.2. -/
theorem test_decode_corners :
    ([(.addi 1 0 (-2048), 0x80000093), (.lw 1 2 2047, 0x7FF12083), (.sw 2 1 2047, 0x7E20AFA3),
      (.sw 2 1 (-2048), 0x8020A023), (.beq 0 0 2047, 0x7E000FE3), (.beq 0 0 (-2048), 0x80000063),
      (.beq 0 31 1008, 0x7FF00063), (.jal 0 524287, 0x7FFFF06F), (.jal 0 (-524288), 0x8000006F),
      (.lui 1 1048575, 0xFFFFF0B7), (.srai 1 1 31, 0x41F0D093), (.jal 0 (-1), 0xFFFFF06F),
      (.lui 1 524288, 0x800000B7), (.addi 0 0 0, 0x00000013)] : List (Instr × Word)).all
      (fun p => pairs p.1 p.2) = true := by decide

/-- 95_test_vectors.md 2.4. -/
theorem test_invalid_words :
    ([0x00000000, 0xFFFFFFFF, 0x0000007F, 0x00000077, 0x00003013, 0x0000700B, 0x02001033, 0x40001033, 0x80001013,
      0x42005013, 0x00001003, 0x00000023, 0x00002063, 0x00001067, 0x00000173, 0x00100073, 0x02100073, 0x04000173,
      0x06000073] : List Word).all (fun w => (decode w).toOption.isNone) = true := by decide

/-- 95_test_vectors.md 2.3, with the operand each refusal names. -/
theorem test_encoder_refusals :
    ([({ mnemonic := .addi, rd := 1, imm := 2048 }, .imm), ({ mnemonic := .addi, rd := 1, imm := -2049 }, .imm),
      ({ mnemonic := .slli, rd := 1, rs1 := 1, imm := 32 }, .shamt), ({ mnemonic := .lui, rd := 1, imm := -1 }, .u20),
      ({ mnemonic := .lui, rd := 1, imm := 1048576 }, .u20), ({ mnemonic := .jal, imm := 524288 }, .off),
      ({ mnemonic := .beq, imm := 2048 }, .off), ({ mnemonic := .add, rd := 32, rs1 := 1, rs2 := 2 }, .rd)]
        : List (Request × OperandField)).all
      (fun p => match encodeRequest p.1 with | .ok _ => false | .error e => e.field == p.2) = true := by decide

/-- Masks and matches of 30_encoding.md R89, one row of each format. -/
theorem test_mask_and_match :
    ([(.sub, 0xFE00707F, 0x40000033), (.srai, 0xFE00707F, 0x40005013), (.subi, 0x0000707F, 0x0000000B),
      (.sw, 0x0000707F, 0x00002023), (.bge, 0x0000707F, 0x00005063), (.lui, 0x0000007F, 0x00000037),
      (.jal, 0x0000007F, 0x0000006F), (.ebreak, 0xFFFFFFFF, 0x00000073), (.eread, 0xFFFFF07F, 0x02000073),
      (.ewrite, 0xFFF07FFF, 0x04000073)] : List (Mnemonic × Word × Word)).all
      (fun p => p.1.format.mask == p.2.1 && opcodeMap.matchWord p.1 == p.2.2) = true := by decide

theorem test_sign_extend : sext 12 0x800 = -2048 ∧ sext 12 0x7FF = 2047 ∧ sext 32 0xFFFFFFFF = -1 := by decide

/-! ### One instruction on a small state -/

/-- A machine after reset with some registers, a pc and some cells set. -/
def small (regs : List (Reg × Word)) (pc : Word) (mem : Memory) : State :=
  { regs.foldl (fun s p => s.writeReg p.1 p.2) State.reset with pc := pc, mem := mem }

/-- The machine with a given input stream. -/
def withInput (s : State) (input : List Word) : State := supplyInput s input

/-- The machine with the policy `zero`. -/
def policyZero (s : State) : State := { s with params := { s.params with divZeroPolicy := .zero } }

/-- The next state of a result. -/
def resultState (r : Result) : Option State :=
  match r with
  | .next t => some t
  | .fault _ | .refused _ => none

/-- A computed next state is the answer. -/
theorem next_of_resultState {r : Result} {t : State} (h : resultState r = some t) : r = .next t := by
  cases r with
  | next u => exact congrArg Host.Outcome.next (Option.some.inj h)
  | fault f => cases h
  | refused f => cases h

/-- What register `r` and the pc hold after instruction `i` on x1 = a, x2 = b, x3 = 99 at slot 10. -/
def after2 (i : Instr) (a b : Word) (r : Reg) : Option (Word × Word) :=
  (resultState (exec i (small [(1, a), (2, b), (3, 99)] 10 []))).map fun t => (t.readReg r, t.pc)

theorem test_add_wraps : after2 (.add 3 1 2) 0x7FFFFFFF 1 3 = some (0x80000000, 11) := by decide

theorem test_add_source_is_destination : after2 (.add 1 1 1) 0xFFFFFFFF 1 1 = some (0xFFFFFFFE, 11) := by decide

theorem test_sub_wraps : after2 (.sub 3 1 2) 0x80000000 1 3 = some (0x7FFFFFFF, 11) := by decide

theorem test_sub_borrows : after2 (.sub 3 1 2) 0 1 3 = some (0xFFFFFFFF, 11) := by decide

theorem test_and : after2 (.and 3 1 2) 0xF0F0F0F0 0x0FF00FF0 3 = some (0x00F000F0, 11) := by decide

theorem test_or : after2 (.or 3 1 2) 0xF0F0F0F0 0x0FF00FF0 3 = some (0xFFF0FFF0, 11) := by decide

theorem test_xor : after2 (.xor 3 1 2) 0xF0F0F0F0 0x0FF00FF0 3 = some (0xFF00FF00, 11) := by decide

theorem test_sll_by_32_is_by_0 : after2 (.sll 3 1 2) 1 0x20 3 = some (1, 11) := by decide

theorem test_sll_by_63_is_by_31 : after2 (.sll 3 1 2) 0xFFFFFFFF 0x3F 3 = some (0x80000000, 11) := by decide

theorem test_srl_by_31 : after2 (.srl 3 1 2) 0x80000000 0x1F 3 = some (1, 11) := by decide

theorem test_srl_by_32_is_by_0 : after2 (.srl 3 1 2) 0x80000000 0x20 3 = some (0x80000000, 11) := by decide

theorem test_sra_keeps_sign : after2 (.sra 3 1 2) 0x80000000 0xFFFFFFE1 3 = some (0xC0000000, 11) := by decide

theorem test_sra_rounds_down : after2 (.sra 3 1 2) 0xFFFFFFF9 1 3 = some (0xFFFFFFFC, 11) := by decide

theorem test_slt_signed : after2 (.slt 3 1 2) 0x80000000 0x7FFFFFFF 3 = some (1, 11) := by decide

theorem test_slt_equal : after2 (.slt 3 1 2) 5 5 3 = some (0, 11) := by decide

theorem test_seq : after2 (.seq 3 1 2) 0 0 3 = some (1, 11) := by decide

theorem test_sne : after2 (.sne 3 1 2) 0xFFFFFFFF 0x7FFFFFFF 3 = some (1, 11) := by decide

theorem test_sge_equal : after2 (.sge 3 1 2) 0x80000000 0x80000000 3 = some (1, 11) := by decide

theorem test_sge_signed : after2 (.sge 3 1 2) 0xFFFFFFFF 0 3 = some (0, 11) := by decide

theorem test_mul_wraps : after2 (.mul 3 1 2) 0x7FFFFFFF 0x7FFFFFFF 3 = some (1, 11) := by decide

theorem test_mul_low_word : after2 (.mul 3 1 2) 0x80000000 0xFFFFFFFF 3 = some (0x80000000, 11) := by decide

theorem test_div_toward_zero : after2 (.div 3 1 2) 7 0xFFFFFFFE 3 = some (0xFFFFFFFD, 11) := by decide

theorem test_rem_sign_of_dividend : after2 (.rem 3 1 2) 0xFFFFFFF9 0xFFFFFFFE 3 = some (0xFFFFFFFF, 11) := by decide

theorem test_addi_sign_extends : after2 (.addi 3 0 (-1)) 0 0 3 = some (0xFFFFFFFF, 11) := by decide

theorem test_subi_wraps : after2 (.subi 3 1 (-1)) 0x7FFFFFFF 0 3 = some (0x80000000, 11) := by decide

theorem test_andi_sign_extends : after2 (.andi 3 1 (-1)) 0x12345678 0 3 = some (0x12345678, 11) := by decide

theorem test_ori_sign_extends : after2 (.ori 3 1 (-1)) 0x12345678 0 3 = some (0xFFFFFFFF, 11) := by decide

theorem test_xori_sign_extends : after2 (.xori 3 1 (-1)) 0x12345678 0 3 = some (0xEDCBA987, 11) := by decide

theorem test_slli_by_31 : after2 (.slli 3 1 31) 1 0 3 = some (0x80000000, 11) := by decide

theorem test_srli_by_31 : after2 (.srli 3 1 31) 0x80000000 0 3 = some (1, 11) := by decide

theorem test_srai_by_31 : after2 (.srai 3 1 31) 0x80000000 0 3 = some (0xFFFFFFFF, 11) := by decide

theorem test_slti_signed : after2 (.slti 3 1 0) 0xFFFFFFFF 0 3 = some (1, 11) := by decide

theorem test_seqi_sign_extends : after2 (.seqi 3 1 (-1)) 0xFFFFFFFF 0 3 = some (1, 11) := by decide

theorem test_snei_sign_extends : after2 (.snei 3 1 (-1)) 0xFFFFFFFF 0 3 = some (0, 11) := by decide

theorem test_sgei_signed : after2 (.sgei 3 1 (-1)) 0 0 3 = some (1, 11) := by decide

theorem test_muli_signed : after2 (.muli 3 1 (-1)) 7 0 3 = some (0xFFFFFFF9, 11) := by decide

theorem test_divi_toward_zero : after2 (.divi 3 1 (-2)) 7 0 3 = some (0xFFFFFFFD, 11) := by decide

theorem test_remi_sign_of_dividend : after2 (.remi 3 1 (-2)) 0xFFFFFFF9 0 3 = some (0xFFFFFFFF, 11) := by decide

theorem test_lui_top : after2 (.lui 3 1048575) 0 0 3 = some (0xFFFFF000, 11) := by decide

theorem test_x0_discards : after2 (.or 0 1 2) 5 6 0 = some (0, 11) := by decide

/-- 95_test_vectors.md 4. -/
theorem test_lw : (resultState (exec (.lw 5 1 2) (small [(1, 10)] 4 [(12, 0xDEADBEEF)]))).map (·.readReg 5)
    = some 0xDEADBEEF := by decide

theorem test_lw_out_of_range : resultState (exec (.lw 2 1 (-1)) (small [] 4 []))
    = some ((small [] 4 []).takeTrap ⟨.loadOutOfRange, 0xFFFFFFFF⟩) := by decide

/-- The second address wraps to 0. -/
theorem test_sw : (resultState (exec (.sw 5 1 (-1)) (small [(1, 10), (5, 0x12345678)] 4 []))).map (·.mem)
      = some [(9, 0x12345678)] ∧
    (resultState (exec (.sw 2 1 1) (small [(1, 0xFFFFFFFF), (2, 7)] 4 []))).map (·.mem) = some [(0, 7)] := by decide

theorem test_sw_out_of_range : resultState (exec (.sw 2 1 1) (small [(1, 65535)] 4 []))
    = some ((small [(1, 65535)] 4 []).takeTrap ⟨.storeOutOfRange, 65536⟩) := by decide

/-- 95_test_vectors.md 5: the pc after a control transfer. -/
def pcAfter (i : Instr) (here a b : Word) : Option Word :=
  (resultState (exec i (small [(1, a), (2, b)] here []))).map (·.pc)

theorem test_beq : pcAfter (.beq 1 2 2) 10 7 7 = some 13 ∧ pcAfter (.beq 1 2 2) 10 7 8 = some 11 := by decide

theorem test_bne : pcAfter (.bne 1 2 (-2)) 10 7 8 = some 9 ∧ pcAfter (.bne 1 2 (-2)) 10 7 7 = some 11 := by decide

theorem test_blt : pcAfter (.blt 1 2 (-2)) 10 0xFFFFFFFF 1 = some 9 ∧ pcAfter (.blt 1 2 (-2)) 10 1 0xFFFFFFFF = some 11 := by
  decide

theorem test_bge : pcAfter (.bge 1 2 (-2)) 10 0xFFFFFFFB 0xFFFFFFFB = some 9 ∧
    pcAfter (.bge 1 2 (-2)) 10 0xFFFFFFFF 0 = some 11 := by decide

theorem test_branch_target_wraps : pcAfter (.beq 0 0 (-2)) 0 0 0 = some 0xFFFFFFFF := by decide

theorem test_jal : pcAfter (.jal 0 2) 5 0 0 = some 8 ∧ after2 (.jal 3 (-1)) 0 0 3 = some (11, 10) := by decide

theorem test_jalr_uses_the_old_register : after2 (.jalr 1 1 2) 20 0 1 = some (11, 22) := by decide

/-- 95_test_vectors.md 6. -/
theorem test_ebreak : resultState (exec .ebreak (small [] 3 []))
    = some { small [] 4 [] with halted := true, started := true } := by decide

theorem test_eread : (resultState (exec (.eread 5) (withInput (small [] 0 []) [72, 105]))).map
    (fun t => (t.readReg 5, t.cursor)) = some (72, 1) := by decide

theorem test_eread_at_the_end : (resultState (exec (.eread 5) (small [(5, 9)] 0 []))).map
    (fun t => (t.readReg 5, t.cursor)) = some (0, 0) := by decide

theorem test_ewrite : (resultState (exec (.ewrite 5) (small [(5, 0x12345)] 0 []))).map (·.out)
    = some [0x12345] := by decide

/-! ### Steps -/

/-- 95_test_vectors.md 8, `div x3, x1, x0` at slot 1. -/
theorem test_div_by_zero_traps : hostStep (small [(1, 7), (3, 5)] 1 [(1, 0x0200C1B3)])
    = ((small [(1, 7), (3, 5)] 1 [(1, 0x0200C1B3)]).takeTrap ⟨.divideByZero, 1⟩, .trapped .divideByZero) := by
  decide

/-- The policy `zero`, on `rem x3, x1, x0`. -/
theorem test_remainder_by_zero_gives_zero :
    (resultState (exec (.rem 3 1 0) (policyZero (small [(1, 7), (3, 5)] 1 [])))).map (·.readReg 3) = some 0 := by decide

theorem test_fetch_out_of_range : hostStep (small [] 65536 [])
    = ((small [] 65536 []).takeTrap ⟨.fetchOutOfRange, 65536⟩, .trapped .fetchOutOfRange) := by decide

theorem test_invalid_word_halts : hostStep (small [] 3 []) = ((small [] 3 []).stopAtInvalid, .halted) := by decide

/-- The host's placing of a word: the very next step runs it, from a halted machine too. -/
theorem test_withFetchWord : (resultState (step ((haltRequest State.reset).withFetchWord 32 0xFFF00093))).map
    (·.readReg 1) = some 0xFFFFFFFF := by decide

/-! ### Another OPCODE_MAP (00_scope.md R5) -/

/-- The default table with the numbers of `add` and `sub` exchanged. -/
def swapped : OpcodeMap :=
  .ofCodes fun m => defaultCodes (if m = .add then .sub else if m = .sub then .add else m)

theorem swapped_valid : swapped.Valid := valid_of_check (by decide +kernel)

/-- A machine with another OPCODE_MAP. -/
def withMap (s : State) (map : OpcodeMap) : State := { s with params := { s.params with opcodeMap := map } }

/-- The word of `add` under the default is fetched as `sub`, and the assembler writes that word for `sub`. -/
theorem test_other_map : fetch (withMap (small [] 0 [(0, 0x002081B3)]) swapped) = .instr (.sub 3 1 2) ∧
    (load (withMap State.reset swapped) "sub x3, x1, x2").1.mem = [(0, 0x002081B3)] := by decide

/-! ### Text (95_test_vectors.md 7) -/

theorem test_disassembly : disassemble opcodeMap 0xFE20AFA3 = some "sw x2, -1(x1)" ∧
    disassemble opcodeMap 0x800000B7 = some "lui x1, 524288" ∧ disassemble opcodeMap 0 = none := by decide

/-- The words of a source, or the line numbers and kinds of its errors. -/
def assembled (source : String) : List Word × List (Nat × ErrorKind) :=
  match assemble opcodeMap 65536 source with
  | .ok image => (image.words, [])
  | .error es => ([], es.map fun e => (e.lineNumber, e.kind))

theorem test_assemble_program : assembled "addi x1, x0, 5\naddi x2, x0, 3\nadd x3, x1, x2\nebreak"
    = ([0x00500093, 0x00300113, 0x002081B3, 0x00000073], []) := by decide

theorem test_assemble_labels : assembled "beq x0, x0, fwd\nback:\nli x5, 5000\nfwd: # here\nbeq X0, x0, back"
    = ([0x00000263, 0x000012B7, 0x38828293, 0xFE000DE3], []) := by decide

theorem test_assemble_li_label : assembled "ebreak\nebreak\nebreak\nL:\nli x5, L"
    = ([0x00000073, 0x00000073, 0x00000073, 0x000002B7, 0x00328293], []) := by decide

theorem test_assemble_errors : assembled "addi x1, x0, 5000\nbogus x1\njal x0, missing\nebreak"
    = ([], [(0, .encodingImpossible (some .imm)), (1, .badLine), (2, .unknownLabel)]) := by decide

/-- The error of a program longer than memory stands in its place among the errors of pass 1 (44_assembler.md R205). -/
theorem test_assemble_too_long : assembled "data 0 * 65537\nbogus" = ([], [(0, .programTooLong), (1, .badLine)]) := by
  decide

theorem test_assemble_duplicate_label : assembled "a:\na:\nebreak" = ([], [(1, .duplicateLabel)]) := by decide

/-! ### Witnesses: concrete states and operands that meet the hypotheses of the statements -/

def adding : State := small [(1, 5), (2, 3)] 10 [(10, 0x002081B3)]
def loading : State := small [(1, 10)] 4 [(4, 0x0020A283), (12, 0xDEADBEEF)]
def storing : State := small [(1, 10), (5, 0x12345678)] 4 [(4, 0xFE50AFA3)]
def reading : State := withInput (small [] 0 [(0, 0x020002F3)]) [72, 105]
def writing : State := small [(5, 65)] 0 [(0, 0x04028073)]
def jumping : State := small [] 65535 [(65535, 0x0000206F)]
def lastSlot : State := small [] 65535 [(65535, 0x00000013)]
def halting : State := small [] 3 [(3, 0x00000073)]
def badLoad : State := small [] 4 [(4, 0xFFF0A103)]
def badStore : State := small [(1, 65535)] 4 [(4, 0x0020A0A3)]
def dividing : State := small [(1, 7), (3, 5)] 1 [(1, 0x0200C1B3)]
def dividingImmediate : State := small [(1, 7), (3, 5)] 1 [(1, 0x0000D18B)]
def outside : State := small [] 65536 []

theorem step_adding : step adding = .next (adding.advance.writeReg 3 8) := next_of_resultState (by decide)

theorem step_loading : step loading = .next (loading.advance.writeReg 5 0xDEADBEEF) := next_of_resultState (by decide)

theorem step_storing : step storing = .next { storing.advance with mem := [(4, 0xFE50AFA3), (9, 0x12345678)] } :=
  next_of_resultState (by decide)

theorem step_reading : step reading = .next { reading.advance.writeReg 5 72 with cursor := 1 } :=
  next_of_resultState (by decide)

theorem step_writing : step writing = .next { writing.advance with out := [65] } := next_of_resultState (by decide)

theorem step_jumping : step jumping = .next (jumping.advance.setPc 65538) := next_of_resultState (by decide)

theorem step_lastSlot : step lastSlot = .next lastSlot.advance := next_of_resultState (by decide)

theorem step_halting : step halting = .next halting.advance.halt := next_of_resultState (by decide)

theorem witness_SextIsTwosComplementReading : 1 ≤ 1 ∧ 1 ≤ 32 ∧ sext 1 3 = -1 ∧ 32 ≤ 32 ∧ sext 32 0x80000000 = -2147483648 := by
  decide

theorem witness_FieldReadsBackWhatPutWrote :
    25 + 7 ≤ 32 ∧ field (put 0x33 25 7 (-1)) 25 7 = 127 ∧ 0 + 7 ≤ 25 ∧ field (put 0x33 25 7 (-1)) 0 7 = 0x33 ∧
      0 + 7 ≤ 25 ∧ 25 + 7 ≤ 32 ∧ field (put 0x80000000 0 7 0x33) 25 7 = 0x40 := by decide

theorem witness_EveryValidMapDecodesExactlyWhatItEncodes :
    opcodeMap.Valid ∧ (decodeWith opcodeMap 0x002081B3).toOption = some (.add 3 1 2) ∧
      swapped.Valid ∧ (decodeWith swapped 0x002081B3).toOption = some (.sub 3 1 2) :=
  ⟨opcodeMap_valid, by decide, swapped_valid, by decide⟩

theorem witness_TableDecoderAgreesWithHandlerTables :
    (decodeWith opcodeMap 0x80000063).toOption = some (.beq 0 0 (-2048)) ∧
      (decodeWith opcodeMap 0x7FF00063).toOption = some (.beq 0 31 1008) ∧
      (decodeWith swapped 0x8020A023).toOption = some (.sw 2 1 (-2048)) ∧
      (decodeWith opcodeMap 0xFFFFF0B7).toOption = some (.lui 1 1048575) ∧
      (decodeWith opcodeMap 0x8000006F).toOption = some (.jal 0 (-524288)) ∧
      (decodeWith opcodeMap 0x41F0D093).toOption = some (.srai 1 1 31) := by decide

theorem witness_DecodeAndEncodeAreInverse :
    (Instr.addi 1 0 (-2048)).wellFormed = true ∧ (Instr.jal 0 524287).wellFormed = true ∧
      (decode 0x80000093).toOption = some (.addi 1 0 (-2048)) := by decide

theorem witness_EncoderRefusesExactlyOutOfRangeOperands :
    ImmediateInRange .addi 2047 ∧ ImmediateInRange .slli 31 ∧ ImmediateInRange .lui 1048575 ∧ ImmediateInRange .jal (-524288) ∧
      FieldOutOfRange { mnemonic := .beq, imm := 2048 } .off ∧ FieldOutOfRange { mnemonic := .add, rs2 := 32 } .rs2 :=
  ⟨⟨by decide, by decide⟩, ⟨by decide, by decide⟩, ⟨by decide, by decide⟩, ⟨by decide, by decide⟩,
    fun h => absurd h.2 (by decide), show 31 < 32 by decide⟩

theorem witness_UnassignedOpcodesAreInvalid :
    field 0x0000007F 0 7 ∉ [0x33, 0x13, 0x0B, 0x03, 0x23, 0x63, 0x67, 0x6F, 0x37, 0x73] ∧ field 0xFFFFFF80 0 7 = 0 := by decide

theorem witness_AluDivisionTruncates : (0xFFFFFFFE : Word) ≠ 0 ∧ (0xFFFFFFFF : Word) ≠ 0 := by decide

theorem witness_DivisionByZeroFollowsPolicy :
    dividing.params.divZeroPolicy = .trap ∧ dividing.readReg 0 = 0 ∧ dividing.readReg 2 = 0 ∧
      (policyZero dividing).params.divZeroPolicy = .zero ∧ (policyZero dividing).readReg 2 = 0 := by decide

theorem witness_DivideRegisterResult : (small [(1, 7), (2, 0xFFFFFFFE)] 10 []).readReg 2 ≠ 0 := by decide

theorem witness_CompareImmediateResult : (-2048 : Int) ≤ -2048 ∧ (-2048 : Int) ≤ 2047 ∧ (-2048 : Int) ≤ 2047 ∧ (2047 : Int) ≤ 2047 := by
  decide

theorem witness_DivideImmediateResult :
    ((-2048 : Int) ≤ -2048 ∧ (-2048 : Int) ≤ 2047 ∧ (-2048 : Int) ≠ 0) ∧ (-2048 : Int) ≤ 2047 ∧ (2047 : Int) ≤ 2047 ∧ (2047 : Int) ≠ 0 := by
  decide

theorem witness_LoadUpperImmediateResult :
    1048575 ≤ 1048575 ∧ (3 : Reg) ≠ 0 ∧ (resultState (exec (.lui 3 1048575) State.reset)).map (·.readReg 3) = some 0xFFFFF000 := by
  decide

/-- The last address inside memory and the first outside it. -/
theorem witness_LoadWordResult :
    uint (effectiveAddress (small [(1, 65535)] 0 []) 1 0) < (small [(1, 65535)] 0 []).params.memWords ∧
      ¬ uint (effectiveAddress (small [(1, 65535)] 0 []) 1 1) < (small [(1, 65535)] 0 []).params.memWords := by decide

theorem witness_StoreWordResult :
    Memory.wf badStore.mem = true ∧ uint (effectiveAddress badStore 1 0) < badStore.params.memWords ∧
      ¬ uint (effectiveAddress badStore 1 1) < badStore.params.memWords := by decide

/-- The last code of the input, and the end of the input. -/
theorem witness_EreadTakesNextCode :
    ({ reading with cursor := 1 } : State).cursor < reading.params.input.length ∧
      ¬ ({ reading with cursor := 2 } : State).cursor < reading.params.input.length := by decide

theorem witness_StepRunsTheDecodedInstruction :
    adding.halted = false ∧ uint adding.pc < adding.params.memWords ∧
      (decode (adding.mem.read (uint adding.pc))).toOption = some (.add 3 1 2) := by decide

theorem witness_HostStepFollowsTheSequencerRule :
    (haltRequest adding).halted = true ∧ (outside.halted = false ∧ outside.params.memWords ≤ uint outside.pc) ∧
      (State.reset.halted = false ∧ uint State.reset.pc < State.reset.params.memWords ∧
        (decode (State.reset.mem.read (uint State.reset.pc))).toOption = none) ∧
      (decode (badLoad.mem.read (uint badLoad.pc))).toOption = some (.lw 2 1 (-1)) ∧ badLoad.halted = false ∧
      (hostStep badLoad).2 = .trapped .loadOutOfRange ∧ (hostStep adding).2 = .continued ∧ (hostStep halting).2 = .halted := by
  decide

theorem witness_FetchOutOfRangeTraps :
    (outside.halted = false ∧ outside.params.memWords ≤ uint outside.pc) ∧
      (uint jumping.pc < jumping.params.memWords ∧ step jumping = .next (jumping.advance.setPc 65538) ∧ 65536 ≤ uint 65538) ∧
      uint lastSlot.pc < lastSlot.params.memWords ∧ step lastSlot = .next lastSlot.advance ∧
      lastSlot.advance.params.memWords ≤ uint lastSlot.advance.pc :=
  ⟨by decide, ⟨by decide, step_jumping, by decide⟩, by decide, step_lastSlot, by decide⟩

theorem witness_PcAdvancesUnlessTransferred :
    adding.halted = false ∧ fetch adding = .instr (.add 3 1 2) ∧ step adding = .next (adding.advance.writeReg 3 8) ∧
      transfersControl (.add 3 1 2) = false := ⟨by decide, by decide, step_adding, by decide⟩

theorem witness_TrapIsPrecise : (hostStep dividing).2 = .trapped .divideByZero := by decide

theorem witness_TrapsHappenExactlyForTheirReasons :
    TrapReason outside .fetchOutOfRange 65536 ∧ TrapReason badLoad .loadOutOfRange 0xFFFFFFFF ∧
      TrapReason badStore .storeOutOfRange 65536 ∧ TrapReason dividing .divideByZero 1 ∧
      TrapReason dividingImmediate .divideByZero 1 ∧ outside.halted = false ∧ badLoad.halted = false ∧
      badStore.halted = false ∧ dividing.halted = false ∧ dividingImmediate.halted = false :=
  ⟨⟨by decide, by decide⟩, ⟨2, 1, -1, by decide, by decide, by decide⟩, ⟨2, 1, 1, by decide, by decide, by decide⟩,
    ⟨by decide, by decide, Or.inl ⟨3, 1, 0, Or.inl (by decide), by decide⟩⟩,
    ⟨by decide, by decide, Or.inr ⟨3, 1, Or.inl (by decide)⟩⟩, by decide, by decide, by decide, by decide, by decide⟩

theorem witness_HaltedOnlyByEbreakInvalidOrTrap :
    step halting = .next halting.advance.halt ∧ halting.halted = false ∧ fetch halting = .instr .ebreak ∧
      (haltRequest halting).halted = true ∧ step (haltRequest halting) = .next (haltRequest halting) :=
  ⟨step_halting, by decide, by decide, by decide, rfl⟩

theorem witness_InvariantKeptByEveryStep :
    storing.Inv ∧ step storing = .next { storing.advance with mem := [(4, 0xFE50AFA3), (9, 0x12345678)] } :=
  ⟨by decide, step_storing⟩

theorem witness_StepKeepsParametersAndSetsStarted :
    step badLoad = .next (badLoad.takeTrap ⟨.loadOutOfRange, 0xFFFFFFFF⟩) ∧ badLoad.halted = false ∧
      (badLoad.takeTrap ⟨.loadOutOfRange, 0xFFFFFFFF⟩).trap ≠ badLoad.trap :=
  ⟨next_of_resultState (by decide), by decide, by decide⟩

theorem witness_StreamsMoveOnlyByTheirInstruction :
    step reading = .next { reading.advance.writeReg 5 72 with cursor := 1 } ∧
      step writing = .next { writing.advance with out := [65] } := ⟨step_reading, step_writing⟩

theorem witness_MemoryChangesOnlyByStore :
    step storing = .next { storing.advance with mem := [(4, 0xFE50AFA3), (9, 0x12345678)] } ∧
      Memory.read [(4, 0xFE50AFA3), (9, 0x12345678)] 9 ≠ storing.mem.read 9 := ⟨step_storing, by decide⟩

theorem witness_RegistersChangeOnlyAsDestination :
    step loading = .next (loading.advance.writeReg 5 0xDEADBEEF) ∧
      (loading.advance.writeReg 5 0xDEADBEEF).readReg 5 ≠ loading.readReg 5 := ⟨step_loading, by decide⟩

theorem witness_UnreadRegistersDoNotMatter :
    (7 : Reg) ∉ sourceRegs (.add 3 1 2) ∧ AgreeExcept 7 adding (adding.writeReg 7 1) ∧
      exec (.add 3 1 2) adding = .next (adding.advance.writeReg 3 8) ∧
      exec (.add 3 1 2) (adding.writeReg 7 1) = .next ((adding.writeReg 7 1).advance.writeReg 3 8) :=
  ⟨by decide, ⟨by decide, rfl, rfl, ⟨rfl, rfl⟩, rfl, rfl, rfl, rfl⟩, next_of_resultState (by decide),
    next_of_resultState (by decide)⟩

/-- The same statement where the unread register is the destination: `lui x7, 1`. -/
theorem witness_UnreadRegistersDoNotMatter_destination :
    (7 : Reg) ∉ sourceRegs (.lui 7 1) ∧ AgreeExcept 7 adding (adding.writeReg 7 1) ∧ destReg (.lui 7 1) = some 7 ∧
      exec (.lui 7 1) adding = .next (adding.advance.writeReg 7 4096) ∧
      exec (.lui 7 1) (adding.writeReg 7 1) = .next ((adding.writeReg 7 1).advance.writeReg 7 4096) ∧
      ∀ c v, ¬ TrappedFrom adding (adding.advance.writeReg 7 4096) c v :=
  ⟨by decide, ⟨by decide, rfl, rfl, ⟨rfl, rfl⟩, rfl, rfl, rfl, rfl⟩, by decide, next_of_resultState (by decide),
    next_of_resultState (by decide), fun _ _ h => absurd h.1 (by decide)⟩

theorem witness_MemoryReadsTheLastWrite :
    Memory.wf storing.mem = true ∧ uint (65535 : Word) < storing.params.memWords ∧
      ¬ uint (65536 : Word) < storing.params.memWords := by decide

/-- `sw x2, 1(x0)` at slot 0, x2 holding the word of `ebreak`. -/
theorem witness_StoreChangesTheNextInstruction :
    Memory.wf (small [(2, 0x73)] 0 [(0, 0x002020A3)]).mem = true ∧ (small [(2, 0x73)] 0 [(0, 0x002020A3)]).halted = false ∧
      fetch (small [(2, 0x73)] 0 [(0, 0x002020A3)]) = .instr (.sw 2 0 1) ∧
      effectiveAddress (small [(2, 0x73)] 0 [(0, 0x002020A3)]) 0 1 = (small [(2, 0x73)] 0 [(0, 0x002020A3)]).pc + 1 ∧
      uint ((small [(2, 0x73)] 0 [(0, 0x002020A3)]).pc + 1) < (small [(2, 0x73)] 0 [(0, 0x002020A3)]).params.memWords ∧
      (decode ((small [(2, 0x73)] 0 [(0, 0x002020A3)]).readReg 2)).toOption = some .ebreak := by decide

theorem witness_LoadPlacesTheImage :
    (assemble State.reset.params.opcodeMap State.reset.params.memWords "ebreak").toOption = some ⟨[0x00000073], []⟩ := by decide

theorem witness_FailedLoadLeavesResetState :
    1 ≤ State.reset.params.memWords ∧ assembled "bogus" = ([], [(0, .badLine)]) ∧
      ∀ m, (State.reset.params.opcodeMap.row m).opcode ≠ 0 :=
  ⟨by decide, by decide, fun m => by cases m <;> decide⟩

theorem witness_AssembledImageFitsMemory :
    (assemble opcodeMap 1 "ebreak").toOption = some ⟨[0x00000073], []⟩ ∧
      (assemble opcodeMap 1 "data 0 * 2").toOption = none := by decide

theorem witness_HostOperationsEstablishInvariant : adding.Inv := by decide

theorem witness_RunsCompose :
    (run halting 1).2 ≠ .limitReached ∧ (run adding 1).2 = .limitReached ∧ (hostStep adding).2 = .continued ∧
      (hostStep halting).2 = .halted ∧ (hostStep badLoad).2 = .trapped .loadOutOfRange := by decide

/-- `li x5, 5000` at slots 0 and 1. -/
theorem witness_LiExpansionLoadsTheConstant :
    (encodeAll opcodeMap (liExpansion 5 5000)).toOption = some [0x000012B7, 0x38828293] ∧ opcodeMap.Valid ∧
      (small [] 0 [(0, 0x000012B7), (1, 0x38828293)]).halted = false ∧ (5 : Reg) ≠ 0 ∧
      (∀ k, k < 2 → uint ((small [] 0 [(0, 0x000012B7), (1, 0x38828293)]).pc + BitVec.ofNat 32 k) < 65536 ∧
        some ((small [] 0 [(0, 0x000012B7), (1, 0x38828293)]).mem.read (uint (0 + BitVec.ofNat 32 k))) =
          ([0x000012B7, 0x38828293] : List Word)[k]?) := ⟨by decide, opcodeMap_valid, by decide, by decide, by decide⟩

theorem witness_LabelOffsetReachesTheLabel : (4294967295 : Nat) < 2 ^ 32 := by decide

end Sys2Proof.Tests
end

/-! ### 00_scope.md R8, R9: sign extension, reading and replacing a field -/

namespace Sys2Proof

/-- R8's formula is the library's balanced remainder modulo 2^n, which is stated by cases. -/
theorem sext_eq_bmod {n : Nat} (hn : 1 ≤ n) (v : Int) : sext n v = v.bmod (2 ^ n) := by
  have hpow : (2 : Int) ^ n = 2 * 2 ^ (n - 1) := by rw [← pow_succ', Nat.sub_add_cancel hn]
  have hpos : (0 : Int) < 2 ^ (n - 1) := by positivity
  simp only [sext, Int.bmod_def, Nat.cast_pow, Nat.cast_ofNat, hpow]
  generalize (2 : Int) ^ (n - 1) = half at hpos
  have hlow : 0 ≤ v % (2 * half) := Int.emod_nonneg v (by omega)
  have hhigh : v % (2 * half) < 2 * half := Int.emod_lt_of_pos v (by omega)
  by_cases hneg : v % (2 * half) < half
  · rw [Int.emod_eq_of_lt (by omega) (by omega), if_pos (by omega)]
    omega
  · rw [if_neg (by omega), ← Int.sub_emod_right, Int.emod_eq_of_lt (by omega) (by omega)]
    omega

theorem sext_lower_bound {n : Nat} (v : Int) : -2 ^ (n - 1) ≤ sext n v := by
  have h : 0 ≤ (v % 2 ^ n + 2 ^ (n - 1)) % 2 ^ n := Int.emod_nonneg _ (by positivity)
  unfold sext
  omega

theorem sext_upper_bound {n : Nat} (hn : 1 ≤ n) (v : Int) : sext n v ≤ 2 ^ (n - 1) - 1 := by
  have hpow : (2 : Int) ^ n = 2 * 2 ^ (n - 1) := by rw [← pow_succ', Nat.sub_add_cancel hn]
  have h : (v % 2 ^ n + 2 ^ (n - 1)) % 2 ^ n < 2 ^ n := Int.emod_lt_of_pos _ (by positivity)
  unfold sext
  omega

/-- Sign extension keeps the low `n` bits. -/
theorem sext_emod {n : Nat} (v : Int) : sext n v % 2 ^ n = v % 2 ^ n := by
  rw [sext, Int.emod_sub_emod, Int.add_sub_cancel, Int.emod_emod]

theorem sext_32_uint (x : Word) : sext 32 (uint x) = sint x := by
  calc sext 32 (uint x)
      = (uint x : Int).bmod (2 ^ 32) := sext_eq_bmod (by decide) _
    _ = sint x := (BitVec.toInt_eq_toNat_bmod x).symm

/-- Settles O1: the bounds are those of a remainder, and 32 bits give the balanced remainder that `BitVec.toInt` is. -/
theorem sextIsTwosComplementReading : Obligations.SextIsTwosComplementReading := by
  intro n v hn _
  exact ⟨rfl, sext_lower_bound v, sext_upper_bound hn v, Int.emod_eq_emod_iff_emod_sub_eq_zero.mp (sext_emod v),
    sext_32_uint⟩

/-- The low bits of a wrapped integer are its residue. -/
theorem field_wrap (v : Int) {width : Nat} (h : width ≤ 32) : (field (wrap v) 0 width : Int) = v % 2 ^ width := by
  have hdvd : (2 : Int) ^ width ∣ 2 ^ 32 := pow_dvd_pow 2 h
  have hnonneg : 0 ≤ v % 2 ^ 32 := Int.emod_nonneg v (by decide)
  calc (field (wrap v) 0 width : Int)
      = ((v % 2 ^ 32).toNat : Int) % 2 ^ width := by simp [field]
    _ = v % 2 ^ 32 % 2 ^ width := by rw [Int.toNat_of_nonneg hnonneg]
    _ = v % 2 ^ width := Int.emod_emod_of_dvd v hdvd

theorem field_put_same (w : Word) (v : Int) {lo width : Nat} (h : lo + width ≤ 32) :
    field (put w lo width v) lo width = field (wrap v) 0 width := by
  refine Nat.eq_of_testBit_eq fun k => ?_
  rw [field_testBit, field_testBit]
  by_cases hk : k < width
  · rw [put_getLsbD w v h _ (by omega), if_pos (by omega), Nat.add_sub_cancel_left, Nat.zero_add]
  · simp [hk]

theorem field_put_disjoint (w : Word) (v : Int) {lo width lo' width' : Nat} (h : lo + width ≤ 32)
    (hdisj : lo' + width' ≤ lo ∨ lo + width ≤ lo' ∧ lo' + width' ≤ 32) :
    field (put w lo width v) lo' width' = field w lo' width' := by
  refine Nat.eq_of_testBit_eq fun k => ?_
  rw [field_testBit, field_testBit]
  by_cases hk : k < width'
  · rw [put_getLsbD w v h _ (by omega), if_neg (by omega)]
  · simp [hk]

/-- Settles O2, bit by bit through `put_getLsbD`. -/
theorem fieldReadsBackWhatPutWrote : Obligations.FieldReadsBackWhatPutWrote := by
  intro w v lo width lo' width' h
  refine ⟨rfl, ?_, field_put_disjoint w v h⟩
  rw [field_put_same w v h, field_wrap v (by omega)]

end Sys2Proof

/-! ### 10_state.md R23: what an executed instruction does, as one action on the state

`exec` reads its operands, and what it then does is one of eight actions. An action is chosen by what the instruction may
read and by nothing else (`exists_executes`), so that the frame of every instruction and its independence from the
registers it does not read are both facts about eight cases. -/

namespace Sys2Proof.Machine

/-- What an instruction does once its operands are read. -/
inductive Action where
  | write (rd : Reg) (v : Word)
  | link (rd : Reg) (target : Word)
  | branch (target : Word)
  | store (a v : Word)
  | halt
  | read (rd : Reg)
  | emit (v : Word)
  | trap (t : Trap)

/-- The state after an action. -/
def Action.apply (a : Action) (s : State) : State :=
  match a with
  | .write rd v => s.advance.writeReg rd v
  | .link rd target => (s.advance.writeReg rd (nextSlot s)).setPc target
  | .branch target => s.advance.setPc target
  | .store a v => { s.advance with mem := s.mem.write (uint a) v }
  | .halt => s.advance.halt
  | .read rd => s.advance.inRead.2.writeReg rd s.advance.inRead.1
  | .emit v => s.advance.outWrite v
  | .trap t => s.takeTrap t

/-- The outcome of a step whose instruction does the action (60_exceptions.md R220). -/
def Action.outcome (a : Action) : StepOutcome :=
  match a with
  | .halt => .halted
  | .trap t => .trapped t.cause
  | .write _ _ | .link _ _ | .branch _ | .store _ _ | .read _ | .emit _ => .continued

/-- Which instructions can do which action, and with which operands from the state before. -/
inductive Action.MadeBy (s : State) : Instr → Action → Prop
  | write {i : Instr} {rd : Reg} (v : Word) (hdest : destReg i = some rd) : MadeBy s i (.write rd v)
  | link {i : Instr} {rd : Reg} (target : Word) (hdest : destReg i = some rd) : MadeBy s i (.link rd target)
  | branch {i : Instr} (target : Word) (hformat : i.mnemonic.format = .B) : MadeBy s i (.branch target)
  | store (rs2 rs1 : Reg) (imm : Int) (hin : uint (effectiveAddress s rs1 imm) < s.params.memWords) :
      MadeBy s (.sw rs2 rs1 imm) (.store (effectiveAddress s rs1 imm) (s.readReg rs2))
  | halt : MadeBy s .ebreak .halt
  | read (rd : Reg) : MadeBy s (.eread rd) (.read rd)
  | emit (rs1 : Reg) : MadeBy s (.ewrite rs1) (.emit (s.readReg rs1))
  | trap {i : Instr} (t : Trap) : MadeBy s i (.trap t)

/-- `s'` gives `i` the operands that `s` gives it: the registers it reads, the pc, memory and the parameters. -/
structure SameReads (i : Instr) (s s' : State) : Prop where
  regs : ∀ q ∈ sourceRegs i, s'.readReg q = s.readReg q
  pc : s'.pc = s.pc
  mem : s'.mem = s.mem
  params : s'.params = s.params

theorem SameReads.refl (i : Instr) (s : State) : SameReads i s s := ⟨fun _ _ => rfl, rfl, rfl, rfl⟩

/-- `a` is what `i` does from `s`, and from every state that gives `i` the same operands. -/
structure Executes (i : Instr) (s : State) (a : Action) : Prop where
  madeBy : a.MadeBy s i
  exec_eq : ∀ s', SameReads i s s' → exec i s' = .next (a.apply s')

/-! The shared operations as actions. Each lemma leaves to its user how `i` takes its operands. -/

/-- An instruction that is an ALU operation on operands it reads writes its destination or traps. -/
theorem executes_aluInto {i : Instr} {s : State} {op : AluOp} {rd : Reg} {x y : Word} (hdest : destReg i = some rd)
    (hexec : ∀ s', SameReads i s s' → exec i s' = aluInto op rd x y s') : ∃ a, Executes i s a := by
  rcases aluInto_cases op rd x y s with ⟨v, halu, -⟩ | ⟨halu, -⟩
  · refine ⟨.write rd v, .write v hdest, fun s' h => ?_⟩
    simp only [hexec s' h, aluInto, h.params, halu, Action.apply]
  · refine ⟨.trap ⟨.divideByZero, s.pc⟩, .trap _, fun s' h => ?_⟩
    simp only [hexec s' h, aluInto, h.params, h.pc, halu, Action.apply]

theorem executes_aluRegister {i : Instr} {s : State} {op : AluOp} {rd x y : Reg} (hsrc : sourceRegs i = [x, y])
    (hdest : destReg i = some rd) (hexec : ∀ s', exec i s' = aluInto op rd (s'.readReg x) (s'.readReg y) s') :
    ∃ a, Executes i s a :=
  executes_aluInto hdest fun s' h => by rw [hexec, h.regs x (by simp [hsrc]), h.regs y (by simp [hsrc])]

theorem executes_aluConstant {i : Instr} {s : State} {op : AluOp} {rd x : Reg} {b : Word} (hsrc : sourceRegs i = [x])
    (hdest : destReg i = some rd) (hexec : ∀ s', exec i s' = aluInto op rd (s'.readReg x) b s') :
    ∃ a, Executes i s a :=
  executes_aluInto hdest fun s' h => by rw [hexec, h.regs x (by simp [hsrc])]

/-- A branch goes to one slot, whether it is taken or not. -/
theorem executes_branch {i : Instr} {s : State} {op : BranchOp} {x y : Reg} {off : Int}
    (hformat : i.mnemonic.format = .B) (hsrc : sourceRegs i = [x, y])
    (hexec : ∀ s', exec i s' = Machine.branch op x y off s') : ∃ a, Executes i s a := by
  have hregs {s' : State} (h : SameReads i s s') : s'.readReg x = s.readReg x ∧ s'.readReg y = s.readReg y :=
    ⟨h.regs x (by simp [hsrc]), h.regs y (by simp [hsrc])⟩
  rcases branch_cases op x y off s with ⟨hc, -⟩ | ⟨hc, -⟩
  · refine ⟨.branch (relativeTarget s off), .branch _ hformat, fun s' h => ?_⟩
    simp [hexec, Machine.branch, hregs h, hc, Action.apply, relativeTarget, nextSlot, h.pc]
  · refine ⟨.branch (nextSlot s), .branch _ hformat, fun s' h => ?_⟩
    simp [hexec, Machine.branch, hregs h, hc, Action.apply, nextSlot, ← h.pc, State.advance, State.setPc]

/-- The effective address is one of the operands that an instruction takes from its state. -/
theorem SameReads.effectiveAddress {i : Instr} {s s' : State} (h : SameReads i s s') {rs1 : Reg}
    (hmem : rs1 ∈ sourceRegs i) (imm : Int) : effectiveAddress s' rs1 imm = effectiveAddress s rs1 imm := by
  simp only [Machine.effectiveAddress, h.regs rs1 hmem]

theorem executes_lw (rd rs1 : Reg) (imm : Int) (s : State) : ∃ a, Executes (.lw rd rs1 imm) s a := by
  have hea {s' : State} (h : SameReads (.lw rd rs1 imm) s s') := h.effectiveAddress (rs1 := rs1) (.head _) imm
  rcases execLw_cases rd rs1 imm s with ⟨hin, -⟩ | ⟨hout, -⟩
  · refine ⟨.write rd (s.mem.read (uint (effectiveAddress s rs1 imm))), .write _ rfl, fun s' h => ?_⟩
    rcases execLw_cases rd rs1 imm s' with ⟨-, e⟩ | ⟨hout, -⟩
    · rw [exec_lw, e, hea h, h.mem]; rfl
    · rw [hea h, h.params] at hout; omega
  · refine ⟨.trap ⟨.loadOutOfRange, effectiveAddress s rs1 imm⟩, .trap _, fun s' h => ?_⟩
    rcases execLw_cases rd rs1 imm s' with ⟨hin, -⟩ | ⟨-, e⟩
    · rw [hea h, h.params] at hin; omega
    · rw [exec_lw, e, hea h]; rfl

theorem executes_sw (rs2 rs1 : Reg) (imm : Int) (s : State) : ∃ a, Executes (.sw rs2 rs1 imm) s a := by
  have hea {s' : State} (h : SameReads (.sw rs2 rs1 imm) s s') := h.effectiveAddress (rs1 := rs1) (.head _) imm
  rcases execSw_cases rs2 rs1 imm s with ⟨hin, -⟩ | ⟨hout, -⟩
  · refine ⟨.store (effectiveAddress s rs1 imm) (s.readReg rs2), .store rs2 rs1 imm hin, fun s' h => ?_⟩
    rcases execSw_cases rs2 rs1 imm s' with ⟨-, e⟩ | ⟨hout, -⟩
    · rw [exec_sw, e, hea h, h.regs rs2 (.tail _ (.head _))]; rfl
    · rw [hea h, h.params] at hout; omega
  · refine ⟨.trap ⟨.storeOutOfRange, effectiveAddress s rs1 imm⟩, .trap _, fun s' h => ?_⟩
    rcases execSw_cases rs2 rs1 imm s' with ⟨hin, -⟩ | ⟨-, e⟩
    · rw [hea h, h.params] at hin; omega
    · rw [exec_sw, e, hea h]; rfl

/-- Every instruction does one action, chosen by the operands it reads. -/
theorem exists_executes (i : Instr) (s : State) : ∃ a, Executes i s a := by
  cases i with
  | add rd rs1 rs2 | sub rd rs1 rs2 | and rd rs1 rs2 | or rd rs1 rs2 | xor rd rs1 rs2 | sll rd rs1 rs2
  | srl rd rs1 rs2 | sra rd rs1 rs2 | slt rd rs1 rs2 | seq rd rs1 rs2 | sne rd rs1 rs2 | sge rd rs1 rs2
  | mul rd rs1 rs2 | div rd rs1 rs2 | rem rd rs1 rs2 =>
    apply executes_aluRegister rfl rfl
    intro s'
    simp only [exec_add, exec_sub, exec_and, exec_or, exec_xor, exec_sll, exec_srl, exec_sra, exec_slt, exec_seq,
      exec_sne, exec_sge, exec_mul, exec_div, exec_rem]
    rfl
  | addi rd rs1 imm | subi rd rs1 imm | andi rd rs1 imm | ori rd rs1 imm | xori rd rs1 imm | slti rd rs1 imm
  | seqi rd rs1 imm | snei rd rs1 imm | sgei rd rs1 imm | muli rd rs1 imm | divi rd rs1 imm | remi rd rs1 imm =>
    apply executes_aluConstant rfl rfl
    intro s'
    simp only [exec_addi, exec_subi, exec_andi, exec_ori, exec_xori, exec_slti, exec_seqi, exec_snei, exec_sgei,
      exec_muli, exec_divi, exec_remi]
    rfl
  | slli rd rs1 shamt | srli rd rs1 shamt | srai rd rs1 shamt =>
    apply executes_aluConstant rfl rfl
    intro s'
    simp only [exec_slli, exec_srli, exec_srai]
    rfl
  | lui rd u20 => exact ⟨.write rd (upperImmediate u20), .write _ rfl, fun _ _ => rfl⟩
  | lw rd rs1 imm => exact executes_lw rd rs1 imm s
  | sw rs2 rs1 imm => exact executes_sw rs2 rs1 imm s
  | beq rs1 rs2 off | bne rs1 rs2 off | blt rs1 rs2 off | bge rs1 rs2 off =>
    exact executes_branch rfl rfl fun _ => rfl
  | jal rd off =>
    refine ⟨.link rd (relativeTarget s off), .link _ rfl, fun s' h => ?_⟩
    rw [exec_jal, relativeTarget, nextSlot, h.pc]
    rfl
  | jalr rd rs1 imm =>
    refine ⟨.link rd (absoluteTarget s rs1 imm), .link _ rfl, fun s' h => ?_⟩
    rw [exec_jalr, absoluteTarget, h.regs rs1 (.head _)]
    rfl
  | ebreak => exact ⟨.halt, .halt, fun _ _ => rfl⟩
  | eread rd => exact ⟨.read rd, .read rd, fun _ _ => rfl⟩
  | ewrite rs1 =>
    refine ⟨.emit (s.readReg rs1), .emit rs1, fun s' h => ?_⟩
    rw [exec_ewrite, h.regs rs1 (.head _)]
    rfl

/-! What the actions change and leave alone. -/

/-- The register an action writes. -/
def Action.dest (a : Action) : Option Reg :=
  match a with
  | .write rd _ | .link rd _ | .read rd => some rd
  | .branch _ | .store _ _ | .halt | .emit _ | .trap _ => none

/-- The word an action writes to its register; 0 where it writes none. -/
def Action.result (a : Action) (s : State) : Word :=
  match a with
  | .write _ v => v
  | .link _ _ => nextSlot s
  | .read _ => s.advance.inRead.1
  | .branch _ | .store _ _ | .halt | .emit _ | .trap _ => 0

/-- The register file after an action. -/
theorem readReg_apply (a : Action) (s : State) (q : Reg) :
    (a.apply s).readReg q = if a.dest = some q ∧ q ≠ 0 then a.result s else s.readReg q := by
  cases a with
  | write rd | link rd | read rd =>
    simp [Action.apply, Action.dest, Action.result, readReg_writeReg, eq_comm (a := q) (b := rd)]
  | store => exact (if_neg (by simp [Action.dest])).symm
  | branch | halt | emit | trap => simp [Action.apply, Action.dest]

/-- An action writes the destination of its instruction, unless it is a trap. -/
theorem Action.MadeBy.dest_eq {s : State} {i : Instr} {a : Action} (h : a.MadeBy s i) :
    a.dest = destReg i ∨ ∃ e, a = .trap e := by
  cases h with
  | write _ hdest | link _ hdest => exact .inl hdest.symm
  | branch _ hformat => exact .inl (by simp [Action.dest, destReg, hformat])
  | store | halt | read | emit => exact .inl rfl
  | trap e => exact .inr ⟨e, rfl⟩

@[simp] theorem apply_params (a : Action) (s : State) : (a.apply s).params = s.params := by
  cases a <;> simp [Action.apply]

@[simp] theorem apply_started (a : Action) (s : State) : (a.apply s).started = true := by
  cases a <;> simp [Action.apply]

/-- Only a halt and a trap set `halted`. -/
theorem apply_halted (a : Action) (s : State) :
    (a.apply s).halted = (s.halted || decide (a.outcome ≠ .continued)) := by
  cases a <;> simp [Action.apply, Action.outcome]

/-- Only a trap records one. -/
theorem apply_trap (a : Action) (s : State) : (∃ e, a = .trap e) ∨ (a.apply s).trap = s.trap := by
  cases a with
  | trap e => exact .inl ⟨e, rfl⟩
  | write | link | branch | store | halt | read | emit => exact .inr (by simp [Action.apply])

/-! ### 42_control_transfer.md R160: a step, with its outcome -/

/-- What a step of `s` can do: the state after it and its outcome. -/
inductive Stepped (s : State) : State → StepOutcome → Prop
  | stays (hhalted : s.halted = true) : Stepped s s .halted
  | outOfRange (hhalted : s.halted = false) (hfetch : fetch s = .outOfRange) :
      Stepped s (s.takeTrap ⟨.fetchOutOfRange, s.pc⟩) (.trapped .fetchOutOfRange)
  | invalid {why : Invalid} (hhalted : s.halted = false) (hfetch : fetch s = .invalid why) :
      Stepped s s.stopAtInvalid .halted
  | executed {i : Instr} {a : Action} (hhalted : s.halted = false) (hfetch : fetch s = .instr i)
      (hmade : a.MadeBy s i) : Stepped s (a.apply s) a.outcome

theorem step_of_outOfRange {s : State} (hhalted : s.halted = false) (hfetch : fetch s = .outOfRange) :
    step s = .next (s.takeTrap ⟨.fetchOutOfRange, s.pc⟩) := by
  simp [step, cycle, hhalted, hfetch]

theorem step_of_invalid {s : State} {why : Invalid} (hhalted : s.halted = false) (hfetch : fetch s = .invalid why) :
    step s = .next s.stopAtInvalid := by
  simp [step, cycle, hhalted, hfetch]

theorem step_of_instr {s : State} {i : Instr} (hhalted : s.halted = false) (hfetch : fetch s = .instr i) :
    step s = exec i s := by
  simp [step, cycle, hhalted, hfetch]

/-- The state with no trap recorded, from which `stepOutcome` takes its step. -/
def State.withoutTrap (s : State) : State := { s with trap := none }

theorem sameReads_withoutTrap (i : Instr) (s : State) : SameReads i s s.withoutTrap := ⟨fun _ _ => rfl, rfl, rfl, rfl⟩

theorem stepOutcome_of_halted {s : State} (hhalted : s.halted = true) : stepOutcome s = .halted := if_pos hhalted

/-- The outcome of a step is read off the state that a step with no trap recorded answers. -/
theorem stepOutcome_of_step {s u : State} (hhalted : s.halted = false) (hstep : step s.withoutTrap = .next u) :
    stepOutcome s = if u.halted then u.trap.elim .halted fun r => .trapped r.cause else .continued := by
  unfold State.withoutTrap at hstep
  rw [stepOutcome, if_neg (by simp [hhalted]), hstep]
  dsimp only
  cases u.trap <;> rfl

/-- The outcome of an executed instruction is that of its action, which does not depend on the trap record. -/
theorem stepOutcome_of_executes {s : State} {i : Instr} {a : Action} (hhalted : s.halted = false)
    (hfetch : fetch s = .instr i) (ha : Executes i s a) : stepOutcome s = a.outcome := by
  have hstep : step s.withoutTrap = .next (a.apply s.withoutTrap) :=
    (step_of_instr (s := s.withoutTrap) hhalted hfetch).trans (ha.exec_eq _ (sameReads_withoutTrap i s))
  rw [stepOutcome_of_step hhalted hstep]
  cases a <;> simp [Action.apply, Action.outcome, State.withoutTrap, hhalted]

theorem hostStep_of_step {s t : State} (h : step s = .next t) : hostStep s = (t, stepOutcome s) := by
  simp only [hostStep, h]

/-- Everything a step can do, with the outcome that the host is told. -/
theorem stepped_of_step {s t : State} (h : step s = .next t) : Stepped s t (hostStep s).2 := by
  rw [hostStep_of_step h]
  rcases step_cases s with ⟨hh, e⟩ | ⟨hh, hf, e⟩ | ⟨hh, ⟨why, hf⟩, e⟩ | ⟨hh, i, hf, e⟩
  · obtain rfl : s = t := by simpa [e] using h
    rw [stepOutcome_of_halted hh]
    exact .stays hh
  · obtain rfl : s.takeTrap ⟨.fetchOutOfRange, s.pc⟩ = t := by simpa [e] using h
    rw [stepOutcome_of_step hh (step_of_outOfRange (s := s.withoutTrap) hh hf)]
    exact .outOfRange hh hf
  · obtain rfl : s.stopAtInvalid = t := by simpa [e] using h
    rw [stepOutcome_of_step hh (step_of_invalid (s := s.withoutTrap) hh hf)]
    exact .invalid hh hf
  · obtain ⟨a, ha⟩ := exists_executes i s
    obtain rfl : a.apply s = t := by simpa [e, ha.exec_eq s (.refl i s)] using h
    rw [stepOutcome_of_executes hh hf ha]
    exact .executed hh hf ha.madeBy

theorem exists_stepped {s t : State} (h : step s = .next t) : ∃ o, Stepped s t o := ⟨_, stepped_of_step h⟩

/-! ### 10_state.md: what every step keeps of the state's fields -/

/-- Settles O41: of the eight actions only `ebreak`'s and a trap set `halted`. -/
theorem haltedOnlyByEbreakInvalidOrTrap : Obligations.HaltedOnlyByEbreakInvalidOrTrap := by
  intro s t h
  have hs := stepped_of_step h
  generalize (hostStep s).2 = o at hs ⊢
  cases hs with
  | stays hh => simp [hh]
  | outOfRange hh hf => simp [hh]
  | invalid hh hf => simp [hh, hf]
  | @executed i a hh hf hmade =>
    refine ⟨fun h => absurd h (by simp [hh]), fun _ => ?_⟩
    rw [apply_halted, hh, hf]
    cases hmade with
    | halt | trap => simp [Action.outcome]
    | store | read | emit => simp [Action.outcome]
    | write _ hdest | link _ hdest =>
      have hne : i ≠ .ebreak := by rintro rfl; simp [destReg, Instr.mnemonic, Mnemonic.format] at hdest
      simp [Action.outcome, hne]
    | branch _ hformat =>
      have hne : i ≠ .ebreak := by rintro rfl; simp [Instr.mnemonic, Mnemonic.format] at hformat
      simp [Action.outcome, hne]

/-- Settles O44: no action writes a parameter, each sets `started`, and only a trap sets the trap record. -/
theorem stepKeepsParametersAndSetsStarted : Obligations.StepKeepsParametersAndSetsStarted := by
  intro s t h
  obtain ⟨o, hs⟩ := exists_stepped h
  cases hs with
  | stays hh => simp [hh]
  | outOfRange hh hf => simp [hh]
  | invalid hh hf => simp [hh]
  | @executed i a hh hf hmade =>
    refine ⟨apply_params a s, fun _ => apply_started a s, fun _ => apply_started a s, fun hne => ⟨hh, ?_⟩⟩
    rcases apply_trap a s with ⟨e, rfl⟩ | hkept
    · rfl
    · exact absurd hkept hne

/-- Settles O45: only the action of `eread` moves the cursor, only that of `ewrite` extends the output. -/
theorem streamsMoveOnlyByTheirInstruction : Obligations.StreamsMoveOnlyByTheirInstruction := by
  intro s t h
  obtain ⟨o, hs⟩ := exists_stepped h
  cases hs with
  | stays | outOfRange | invalid => exact ⟨.inl rfl, .inl rfl⟩
  | executed hh hf hmade =>
    cases hmade with
    | write | link | branch | store | halt | trap => exact ⟨.inl rfl, .inl rfl⟩
    | read rd =>
      refine ⟨?_, .inl (inRead_out s.advance)⟩
      rcases inRead_cases s.advance with ⟨v, hv, e⟩ | ⟨-, e⟩
      · have hlt : s.cursor < s.params.input.length := (List.getElem?_eq_some_iff.mp hv).1
        exact .inr ⟨rd, hf, by simp [Action.apply, e], hlt⟩
      · exact .inl (by simp [Action.apply, e])
    | emit rs1 => exact ⟨.inl rfl, .inr ⟨rs1, hf, rfl⟩⟩

/-- Settles O47: a register that reads differently is the destination of the action. -/
theorem registersChangeOnlyAsDestination : Obligations.RegistersChangeOnlyAsDestination := by
  intro s t r h
  refine ⟨readReg_zero t, fun hne => ?_⟩
  obtain ⟨o, hs⟩ := exists_stepped h
  cases hs with
  | stays | outOfRange | invalid => exact absurd rfl hne
  | @executed i a hh hf hmade =>
    have hwritten : a.dest = some r ∧ r ≠ 0 := by
      by_contra hnot
      exact hne (by rw [readReg_apply, if_neg hnot])
    obtain ⟨hdest, h0⟩ := hwritten
    rcases hmade.dest_eq with he | ⟨e, rfl⟩
    · exact ⟨i, hf, he.symm.trans hdest, h0⟩
    · exact absurd hdest (by simp [Action.dest])

/-! ### 10_state.md R23: independence from the registers an instruction does not read -/

theorem sameReads_of_agreeExcept {i : Instr} {r : Reg} {s s' : State} (hr : r ∉ sourceRegs i)
    (h : AgreeExcept r s s') : SameReads i s s' := by
  obtain ⟨hregs, hpc, hmem, -, -, -, -, hparams⟩ := h
  exact ⟨fun q hq => hregs q (ne_of_mem_of_not_mem hq hr), hpc, hmem, hparams⟩

/-- `InRead()` looks at the input and the cursor alone. -/
theorem inRead_congr {s s' : State} (hparams : s'.params = s.params) (hcursor : s'.cursor = s.cursor) :
    s'.inRead.1 = s.inRead.1 ∧ s'.inRead.2.cursor = s.inRead.2.cursor := by
  unfold State.inRead
  rw [hparams, hcursor]
  split <;> simp [hcursor]

/-- What an action writes to its destination depends on no register. -/
theorem result_eq_of_agreeExcept {r : Reg} {s s' : State} (a : Action) (h : AgreeExcept r s s') :
    a.result s' = a.result s := by
  obtain ⟨-, hpc, -, ⟨hcursor, -⟩, -, -, -, hparams⟩ := h
  cases a with
  | link => simp [Action.result, nextSlot, hpc]
  | read => exact (inRead_congr (s := s.advance) (s' := s'.advance) hparams hcursor).1
  | write | branch | store | halt | emit | trap => rfl

/-- An action keeps the agreement of two states in everything but one register. -/
theorem agreeExcept_apply {r : Reg} {s s' : State} (a : Action) (h : AgreeExcept r s s') :
    AgreeExcept r (a.apply s) (a.apply s') := by
  have hresult := result_eq_of_agreeExcept a h
  obtain ⟨hregs, hpc, hmem, ⟨hcursor, hout⟩, -, hhalted, htrap, hparams⟩ := h
  have hread := (inRead_congr (s := s.advance) (s' := s'.advance) hparams hcursor).2
  refine ⟨fun q hq => by rw [readReg_apply, readReg_apply, hresult, hregs q hq], ?_⟩
  cases a <;> simp [Action.apply, SameStreams, hpc, hmem, hcursor, hout, hhalted, htrap, hparams, hread]

/-- Settles O48: the action is chosen by what the instruction reads, and an action treats all states alike. -/
theorem unreadRegistersDoNotMatter : Obligations.UnreadRegistersDoNotMatter := by
  intro i r s s' t t' hr hagree h h'
  obtain ⟨a, ha⟩ := exists_executes i s
  obtain rfl : a.apply s = t := by simpa [ha.exec_eq s (.refl i s)] using h
  obtain rfl : a.apply s' = t' := by simpa [ha.exec_eq s' (sameReads_of_agreeExcept hr hagree)] using h'
  refine ⟨agreeExcept_apply a hagree, fun hdest hnotrap => ?_⟩
  rcases ha.madeBy.dest_eq with he | ⟨e, rfl⟩
  · rw [readReg_apply, readReg_apply, he, hdest, result_eq_of_agreeExcept a hagree]
    by_cases h0 : r = 0 <;> simp [h0]
  · exact absurd ⟨rfl, rfl, rfl, rfl, rfl, rfl, rfl, rfl, rfl⟩ (hnotrap e.cause e.value)

/-! ### 10_state.md R21, R22, R37: the register file, and reset -/

/-- Settles O49, by induction on the sequence from its last write. -/
theorem registersHoldTheLastWrite : Obligations.RegistersHoldTheLastWrite := by
  intro writes s r
  by_cases h0 : r = 0
  · simp [h0]
  · rw [if_neg h0]
    induction writes using List.reverseRecOn with
    | nil => rfl
    | append_singleton earlier p ih =>
      rw [List.foldl_append, List.reverse_append, List.foldl_cons, List.foldl_nil, readReg_writeReg]
      by_cases hp : r = p.1
      · simp [hp, hp ▸ h0]
      · have hp' : (p.1 == r) = false := by simpa using Ne.symm hp
        simp [hp, hp', ih]

/-- Settles O43. -/
theorem invariantHoldsAtReset : Obligations.InvariantHoldsAtReset :=
  ⟨rfl, rfl, rfl, Nat.zero_le _, fun h => absurd h (by decide)⟩

end Sys2Proof.Machine

/-! ### 20_memory.md R40-R50: writes as reads and fetches see them, and what a step keeps of memory -/

namespace Sys2Proof.Machine

/-- A write that succeeds replaces one cell and changes no other field of the state. -/
theorem eq_of_memWrite {s t : State} {a v : Word} (h : s.memWrite a v = some t) :
    uint a < s.params.memWords ∧ t = { s with mem := s.mem.write (uint a) v } := by
  rcases memWrite_cases s a v with ⟨hin, e⟩ | ⟨-, e⟩
  · exact ⟨hin, Option.some.inj (h.symm.trans e)⟩
  · simp [e] at h

/-- What a read answers after a write that succeeded. -/
theorem memRead_memWrite {s t : State} {a v : Word} (hwf : s.mem.wf = true) (h : s.memWrite a v = some t) (b : Word) :
    t.memRead b = if b = a then some v else s.memRead b := by
  obtain ⟨hin, rfl⟩ := eq_of_memWrite h
  by_cases hb : b = a
  · subst hb
    rw [if_pos rfl, memRead_eq_some]
    exact ⟨hin, by rw [read_write hwf, if_pos rfl]⟩
  · have hslot : uint b ≠ uint a := mt BitVec.eq_of_toNat_eq hb
    rw [if_neg hb, State.memRead, State.memRead, read_write_ne _ _ hslot]
    rfl

/-- A store whose write succeeds answers the written state, with the pc one slot on. -/
theorem exec_sw_of_memWrite {s t : State} {rs2 rs1 : Reg} {imm : Int}
    (h : s.advance.memWrite (effectiveAddress s rs1 imm) (s.readReg rs2) = some t) :
    exec (.sw rs2 rs1 imm) s = .next t := by
  rw [exec_sw, execSw, h]

/-- A fetch finds the decoding of the word that the cell at the pc holds. -/
theorem fetch_of_ok {s : State} {w : Word} {i : Instr} (hread : s.memRead s.pc = some w)
    (hdecode : decodeWith s.params.opcodeMap w = .ok i) : fetch s = .instr i := by
  simp only [fetch, hread, hdecode]

/-- A fetch of a word that does not decode. -/
theorem fetch_of_error {s : State} {w : Word} {why : Invalid} (hread : s.memRead s.pc = some w)
    (hdecode : decodeWith s.params.opcodeMap w = .error why) : fetch s = .invalid why := by
  simp only [fetch, hread, hdecode]

/-! What the actions do to cell 0 of the registers, to the cursor and to memory. -/

/-- No action reaches cell 0 of the register file. -/
theorem apply_cell_zero (a : Action) (s : State) : (a.apply s).x[0] = s.x[0] := by
  cases a with
  | write | link => exact writeReg_cell_zero s.advance _ _
  | read => exact (writeReg_cell_zero _ _ _).trans (by rw [inRead_x, advance_x])
  | branch | store | halt | emit | trap => rfl

/-- No action takes the cursor past the end of the input. -/
theorem apply_cursor_le (a : Action) {s : State} (h : s.cursor ≤ s.params.input.length) :
    (a.apply s).cursor ≤ s.params.input.length := by
  cases a with
  | read => exact inRead_cursor_le s.advance h
  | write | link | branch | store | halt | emit | trap => exact h

/-- An action that changes memory is the one of an `sw` to a cell of memory. -/
theorem Action.MadeBy.mem_cases {s : State} {i : Instr} {a : Action} (h : a.MadeBy s i) :
    (a.apply s).mem = s.mem ∨
      ∃ rs2 rs1 imm, i = .sw rs2 rs1 imm ∧ uint (effectiveAddress s rs1 imm) < s.params.memWords ∧
        (a.apply s).mem = s.mem.write (uint (effectiveAddress s rs1 imm)) (s.readReg rs2) := by
  cases h with
  | store rs2 rs1 imm hin => exact .inr ⟨rs2, rs1, imm, rfl, hin, rfl⟩
  | write | link | branch | halt | read | emit | trap => exact .inl (by simp [Action.apply])

/-- The action of an instruction keeps the invariant of a machine that is not halted. -/
theorem Action.MadeBy.inv_apply {s : State} {i : Instr} {a : Action} (h : a.MadeBy s i) (hhalted : s.halted = false)
    (hinv : s.Inv) : (a.apply s).Inv := by
  obtain ⟨hwf, hwithin, hzero, hcursor, htrap⟩ := hinv
  have hmem : (a.apply s).mem.wf = true ∧ (a.apply s).mem.within s.params.memWords = true := by
    rcases h.mem_cases with e | ⟨rs2, rs1, imm, -, hin, e⟩
    · exact e.symm ▸ ⟨hwf, hwithin⟩
    · exact e.symm ▸ ⟨wf_write hwf _ _, within_write hwithin hin _⟩
  have htrap' : (a.apply s).trap.isSome = true → (a.apply s).halted = true ∧ (a.apply s).started = true := by
    intro hsome
    rcases apply_trap a s with ⟨e, rfl⟩ | hkept
    · exact ⟨rfl, rfl⟩
    · exact absurd (htrap (hkept ▸ hsome)).1 (by simp [hhalted])
  refine ⟨hmem.1, ?_, (apply_cell_zero a s).trans hzero, ?_, htrap'⟩ <;> rw [apply_params]
  · exact hmem.2
  · exact apply_cursor_le a hcursor

/-- Settles O42: every way a step can end keeps the invariant, the executed instruction by its action. -/
theorem invariantKeptByEveryStep : Obligations.InvariantKeptByEveryStep := by
  intro s t hinv h
  obtain ⟨o, hs⟩ := exists_stepped h
  cases hs with
  | stays => exact hinv
  | executed hh _ hmade => exact hmade.inv_apply hh hinv
  | outOfRange | invalid =>
    obtain ⟨hwf, hwithin, hzero, hcursor, -⟩ := hinv
    exact ⟨hwf, hwithin, hzero, hcursor, fun _ => ⟨rfl, rfl⟩⟩

/-- Settles O46: a cell that reads differently is the one that the action of an `sw` writes. -/
theorem memoryChangesOnlyByStore : Obligations.MemoryChangesOnlyByStore := by
  intro s t a h hne
  obtain ⟨o, hs⟩ := exists_stepped h
  cases hs with
  | stays | outOfRange | invalid => exact absurd rfl hne
  | executed hh hf hmade =>
    rcases hmade.mem_cases with e | ⟨rs2, rs1, imm, rfl, hin, e⟩
    · exact absurd (by rw [e]) hne
    · have ha : a = uint (effectiveAddress s rs1 imm) := by
        by_contra hother
        exact hne (by rw [e, read_write_ne _ _ hother])
      exact ⟨rs2, rs1, imm, hf, ha, ha ▸ hin⟩

/-- Settles O50: below MEM_WORDS by what a read answers after a write, at and above it by the address check. -/
theorem memoryReadsTheLastWrite : Obligations.MemoryReadsTheLastWrite := by
  intro s a v hwf
  rcases memWrite_cases s a v with ⟨hin, hwrite⟩ | ⟨hout, hwrite⟩
  · rw [if_pos hin]
    have hread := memRead_memWrite hwf hwrite
    have hself := (hread a).trans (if_pos rfl)
    refine ⟨_, hwrite, (memRead_eq_some s a _).mpr ⟨hin, rfl⟩, hself, fun b hb => (hread b).trans (if_neg hb), ?_⟩
    cases hdecode : decodeWith s.params.opcodeMap v with
    | ok i => exact fetch_of_ok hself hdecode
    | error why => exact fetch_of_error hself hdecode
  · rw [if_neg (by omega)]
    exact ⟨hwrite, (memRead_eq_none s a).mpr hout⟩

/-- Settles O51: the next fetch reads the cell that the store has just written. -/
theorem storeChangesTheNextInstruction : Obligations.StoreChangesTheNextInstruction := by
  intro s rs2 rs1 imm i hwf hhalted hfetch hea hin hdecode
  rcases memWrite_cases s.advance (s.pc + 1) (s.readReg rs2) with ⟨-, hwrite⟩ | ⟨hout, -⟩
  · have hread := (memRead_memWrite (s := s.advance) hwf hwrite (s.pc + 1)).trans (if_pos rfl)
    have hnext := fetch_of_ok hread hdecode
    refine ⟨_, (step_of_instr hhalted hfetch).trans (exec_sw_of_memWrite (hea ▸ hwrite)), hnext, ?_⟩
    exact step_of_instr hhalted hnext
  · exact absurd hin (Nat.not_lt.mpr hout)

end Sys2Proof.Machine

/-! ### 30_encoding.md R74, R84: an encoded word as a list of fields

A packed word is known by its fields (`eq_pack_iff`). Acceptance by a row, the mask and match of a row, and the inverse of
`pack` are read off that list, format by format, and hold under every OPCODE_MAP. -/

namespace Sys2Proof

/-- A field of an encoded word: its place, and the integer whose low bits it holds. -/
structure Slice where
  lo : Nat
  width : Nat
  value : Int

/-- The fields of an encoded word, from bit 0 to bit 31 (30_encoding.md R64-R69, R74). -/
def Format.slices (f : Format) (c : Codes) (o : Operands) : List Slice :=
  match f with
  | .R => [⟨0, 7, c.opcode.toNat⟩, ⟨7, 5, o.rd⟩, ⟨12, 3, c.funct3.toNat⟩, ⟨15, 5, o.rs1⟩, ⟨20, 5, o.rs2⟩,
      ⟨25, 7, c.funct7.toNat⟩]
  | .I => [⟨0, 7, c.opcode.toNat⟩, ⟨7, 5, o.rd⟩, ⟨12, 3, c.funct3.toNat⟩, ⟨15, 5, o.rs1⟩, ⟨20, 12, o.imm⟩]
  | .Ish => [⟨0, 7, c.opcode.toNat⟩, ⟨7, 5, o.rd⟩, ⟨12, 3, c.funct3.toNat⟩, ⟨15, 5, o.rs1⟩, ⟨20, 5, o.imm⟩,
      ⟨25, 7, c.funct7.toNat⟩]
  | .S => [⟨0, 7, c.opcode.toNat⟩, ⟨7, 5, o.imm⟩, ⟨12, 3, c.funct3.toNat⟩, ⟨15, 5, o.rs1⟩, ⟨20, 5, o.rs2⟩,
      ⟨25, 7, o.imm / 2 ^ 5⟩]
  | .B => [⟨0, 7, c.opcode.toNat⟩, ⟨7, 1, o.imm / 2 ^ 10⟩, ⟨8, 4, o.imm⟩, ⟨12, 3, c.funct3.toNat⟩, ⟨15, 5, o.rs1⟩,
      ⟨20, 5, o.rs2⟩, ⟨25, 6, o.imm / 2 ^ 4⟩, ⟨31, 1, o.imm / 2 ^ 11⟩]
  | .U | .Uj => [⟨0, 7, c.opcode.toNat⟩, ⟨7, 5, o.rd⟩, ⟨12, 20, o.imm⟩]
  | .Ehalt => [⟨0, 7, c.opcode.toNat⟩, ⟨7, 5, 0⟩, ⟨12, 3, c.funct3.toNat⟩, ⟨15, 5, 0⟩, ⟨20, 5, 0⟩,
      ⟨25, 7, c.funct7.toNat⟩]
  | .Eread => [⟨0, 7, c.opcode.toNat⟩, ⟨7, 5, o.rd⟩, ⟨12, 3, c.funct3.toNat⟩, ⟨15, 5, 0⟩, ⟨20, 5, 0⟩,
      ⟨25, 7, c.funct7.toNat⟩]
  | .Ewrite => [⟨0, 7, c.opcode.toNat⟩, ⟨7, 5, 0⟩, ⟨12, 3, c.funct3.toNat⟩, ⟨15, 5, o.rs1⟩, ⟨20, 5, 0⟩,
      ⟨25, 7, c.funct7.toNat⟩]

/-- The fields of a format leave out no bit of the word. -/
theorem exists_slice_of_lt (f : Format) (c : Codes) (o : Operands) {k : Nat} (hk : k < 32) :
    ∃ s ∈ f.slices c o, s.lo ≤ k ∧ k < s.lo + s.width := by
  cases f <;> simp only [Format.slices, List.exists_mem_cons_iff, List.not_mem_nil, false_and, exists_false] <;> omega

/-- Two words with the same fields are the same word. -/
theorem eq_of_field_eq {f : Format} {c : Codes} {o : Operands} {w x : Word}
    (h : ∀ s ∈ f.slices c o, field w s.lo s.width = field x s.lo s.width) : w = x := by
  refine BitVec.eq_of_getLsbD_eq fun k hk => ?_
  obtain ⟨s, hs, hlo, hhi⟩ := exists_slice_of_lt f c o hk
  have hbit : (field w s.lo s.width).testBit (k - s.lo) = (field x s.lo s.width).testBit (k - s.lo) := by rw [h s hs]
  have hin : k - s.lo < s.width := by omega
  simpa only [field_testBit, hin, decide_true, Bool.true_and, Nat.add_sub_cancel' hlo] using hbit

/-- `field_put_same` as the residue that R9 names. -/
theorem field_put_same_emod (w : Word) (v : Int) {lo width : Nat} (h : lo + width ≤ 32) :
    (field (put w lo width v) lo width : Int) = v % 2 ^ width := by
  rw [field_put_same w v h, field_wrap v (by omega)]

theorem field_zero (lo width : Nat) : field 0 lo width = 0 := by simp [field]

/-- Each field of a packed word holds its value. -/
theorem field_pack (f : Format) (c : Codes) (o : Operands) :
    ∀ s ∈ f.slices c o, (field (pack f c o) s.lo s.width : Int) = s.value % 2 ^ s.width := by
  cases f <;>
    simp (disch := decide) only [Format.slices, pack, List.forall_mem_cons, List.not_mem_nil, false_imp_iff, implies_true,
      field_put_same_emod, field_put_disjoint, field_zero, Nat.cast_zero, Int.zero_emod, and_self]

/-- A word is the packing of some operands exactly when it holds them in its fields. -/
theorem eq_pack_iff {f : Format} {c : Codes} {o : Operands} {w : Word} :
    w = pack f c o ↔ ∀ s ∈ f.slices c o, (field w s.lo s.width : Int) = s.value % 2 ^ s.width := by
  constructor
  · rintro rfl
    exact field_pack f c o
  · intro h
    refine eq_of_field_eq (f := f) (c := c) (o := o) fun s hs => ?_
    exact_mod_cast (h s hs).trans (field_pack f c o s hs).symm

/-- A code fits its field. -/
theorem toNat_emod_two_pow {n : Nat} (x : BitVec n) : (x.toNat : Int) % 2 ^ n = x.toNat := by
  exact_mod_cast x.toNat_mod_cancel

theorem field_emod (w : Word) (lo width : Nat) : (field w lo width : Int) % 2 ^ width = field w lo width := by
  exact_mod_cast Nat.mod_eq_of_lt (field_lt w lo width)

theorem val_regField (w : Word) (lo : Nat) : (regField w lo).val = field w lo 5 :=
  Nat.mod_eq_of_lt (field_lt w lo 5)

/-- The parts of a store's immediate (30_encoding.md R66) determine its low bits, and are determined by them. -/
theorem storeImmediate_parts (w : Word) (n : Int) :
    n % 2 ^ 12 = (cat (field w 25 7) 5 (field w 7 5) : Nat) % 2 ^ 12 ↔
      (field w 7 5 : Int) = n % 2 ^ 5 ∧ (field w 25 7 : Int) = n / 2 ^ 5 % 2 ^ 7 := by
  have hlow := field_lt w 7 5
  have hhigh := field_lt w 25 7
  unfold cat
  omega

/-- The parts of a branch offset (30_encoding.md R67) determine its low bits, and are determined by them. -/
theorem branchOffset_parts (w : Word) (n : Int) :
    n % 2 ^ 12 =
        (cat (cat (cat (field w 31 1) 1 (field w 7 1)) 6 (field w 25 6)) 4 (field w 8 4) : Nat) % 2 ^ 12 ↔
      (field w 7 1 : Int) = n / 2 ^ 10 % 2 ^ 1 ∧ (field w 8 4 : Int) = n % 2 ^ 4 ∧
        (field w 25 6 : Int) = n / 2 ^ 4 % 2 ^ 6 ∧ (field w 31 1 : Int) = n / 2 ^ 11 % 2 ^ 1 := by
  have h11 := field_lt w 31 1
  have h10 := field_lt w 7 1
  have hmid := field_lt w 25 6
  have hlow := field_lt w 8 4
  unfold cat
  omega

/-- 30_encoding.md R84: a row accepts a word exactly when the word is the row's packing of the operands read from it. -/
theorem accepts_iff_eq_pack (map : OpcodeMap) (m : Mnemonic) (w : Word) :
    map.accepts m w = true ↔ w = pack m.format (map.row m) (unpack m.format w) := by
  rw [eq_pack_iff]
  unfold OpcodeMap.accepts
  generalize map.row m = c
  cases m.format <;>
    simp only [Format.slices, unpack, List.forall_mem_cons, List.not_mem_nil, false_imp_iff, implies_true, and_true,
      true_and, toNat_emod_two_pow, val_regField, field_emod, sext_emod, Nat.cast_inj, Int.zero_emod, Nat.cast_eq_zero,
      Bool.and_eq_true, beq_iff_eq, and_assoc]
  case S =>
    obtain ⟨hlow, hhigh⟩ := (storeImmediate_parts w _).mp (sext_emod _)
    simp only [← hlow, ← hhigh, true_and, and_true]
  case B =>
    obtain ⟨h10, hlow, hmid, h11⟩ := (branchOffset_parts w _).mp (sext_emod _)
    simp only [← h10, ← hlow, ← hmid, ← h11, true_and, and_true]
  case Ehalt | Eread | Ewrite => tauto

/-- The operands that an instruction of the format keeps, as the instruction holds them. -/
def Format.restrict (f : Format) (o : Operands) : Operands :=
  match f with
  | .R => { rd := o.rd, rs1 := o.rs1, rs2 := o.rs2 }
  | .I => { rd := o.rd, rs1 := o.rs1, imm := o.imm }
  | .Ish => { rd := o.rd, rs1 := o.rs1, imm := (Fin.ofNat 32 o.imm.toNat).val }
  | .S | .B => { rs1 := o.rs1, rs2 := o.rs2, imm := o.imm }
  | .U => { rd := o.rd, imm := o.imm.toNat }
  | .Uj => { rd := o.rd, imm := o.imm }
  | .Ehalt => {}
  | .Eread => { rd := o.rd }
  | .Ewrite => { rs1 := o.rs1 }

@[simp] theorem mnemonic_build (m : Mnemonic) (o : Operands) : (m.build o).mnemonic = m := by cases m <;> rfl

@[simp] theorem operands_build (m : Mnemonic) (o : Operands) : (m.build o).operands = m.format.restrict o := by
  cases m <;> rfl

/-- The family BuildOperands as one statement. -/
theorem build_operands (i : Instr) : i.mnemonic.build i.operands = i := by
  cases i with
  | slli rd rs1 shamt => exact Laws.BuildOperands.slli rd rs1 shamt
  | srli rd rs1 shamt => exact Laws.BuildOperands.srli rd rs1 shamt
  | srai rd rs1 shamt => exact Laws.BuildOperands.srai rd rs1 shamt
  | _ => rfl

theorem restrict_operands (i : Instr) : i.mnemonic.format.restrict i.operands = i.operands := by
  rw [← operands_build, build_operands]

theorem restrict_unpack (f : Format) (w : Word) : f.restrict (unpack f w) = unpack f w := by
  cases f with
  | Ish =>
    have hlt : field w 20 5 < 32 := field_lt w 20 5
    simp only [Format.restrict, unpack, Int.toNat_natCast, Fin.val_ofNat, Nat.mod_eq_of_lt hlt]
  | _ => rfl

theorem regField_eq {w : Word} {lo : Nat} {r : Reg} (h : (field w lo 5 : Int) = (r : Nat) % 2 ^ 5) : regField w lo = r := by
  have hr := r.isLt
  apply Fin.ext
  rw [val_regField]
  omega

/-- Sign extension from the low `n` bits recovers a number in range. -/
theorem sext_eq_of_emod_eq {n : Nat} (hn : 1 ≤ n) {v x : Int} (h : v % 2 ^ n = x % 2 ^ n) (hlow : -2 ^ (n - 1) ≤ x)
    (hhigh : x < 2 ^ (n - 1)) : sext n v = x := by
  have hpow : (2 : Int) ^ n = 2 * 2 ^ (n - 1) := by rw [← pow_succ', Nat.sub_add_cancel hn]
  rw [sext, h, Int.emod_add_emod, Int.emod_eq_of_lt (by omega) (by omega), Int.add_sub_cancel]

/-- The operands read from a packed word are those that were packed. -/
theorem unpack_pack {m : Mnemonic} {o : Operands} (c : Codes) (hfit : m.format.restrict o = o)
    (himm : ImmediateInRange m o.imm) : unpack m.format (pack m.format c o) = o := by
  have hfields := field_pack m.format c o
  unfold ImmediateInRange at himm
  generalize pack m.format c o = w at hfields
  generalize m.format = f at *
  rw [← hfit]
  cases f <;>
    simp only [Format.slices, List.forall_mem_cons, List.not_mem_nil, false_imp_iff, implies_true, and_true]
      at hfields himm <;>
    simp only [unpack, Format.restrict]
  case R =>
    obtain ⟨-, hrd, -, hrs1, hrs2, -⟩ := hfields
    rw [regField_eq hrd, regField_eq hrs1, regField_eq hrs2]
  case I =>
    obtain ⟨-, hrd, -, hrs1, hin⟩ := hfields
    rw [regField_eq hrd, regField_eq hrs1, sext_eq_of_emod_eq (x := o.imm) (by decide) (by omega) (by omega) (by omega)]
  case Ish =>
    obtain ⟨-, hrd, -, hrs1, hin, -⟩ := hfields
    rw [regField_eq hrd, regField_eq hrs1, Fin.val_ofNat]
    congr
    omega
  case S =>
    obtain ⟨-, hlow, -, hrs1, hrs2, hhigh⟩ := hfields
    have hin := (storeImmediate_parts w o.imm).mpr ⟨hlow, hhigh⟩
    rw [regField_eq hrs1, regField_eq hrs2, sext_eq_of_emod_eq (by decide) hin.symm (by omega) (by omega)]
  case B =>
    obtain ⟨-, h10, hlow, -, hrs1, hrs2, hmid, h11⟩ := hfields
    have hin := (branchOffset_parts w o.imm).mpr ⟨h10, hlow, hmid, h11⟩
    rw [regField_eq hrs1, regField_eq hrs2, sext_eq_of_emod_eq (by decide) hin.symm (by omega) (by omega)]
  case U =>
    obtain ⟨-, hrd, hin⟩ := hfields
    rw [regField_eq hrd]
    congr
    omega
  case Uj =>
    obtain ⟨-, hrd, hin⟩ := hfields
    rw [regField_eq hrd, sext_eq_of_emod_eq (x := o.imm) (by decide) (by omega) (by omega) (by omega)]
  case Eread =>
    obtain ⟨-, hrd, -⟩ := hfields
    rw [regField_eq hrd]
  case Ewrite =>
    obtain ⟨-, -, -, hrs1, -⟩ := hfields
    rw [regField_eq hrs1]

/-- The immediate that is read from a word is in the range of its format. -/
theorem immediateInRange_unpack (m : Mnemonic) (w : Word) : ImmediateInRange m (unpack m.format w).imm := by
  unfold ImmediateInRange
  cases m.format <;> simp only [unpack]
  case I | S | B | Uj => exact ⟨sext_lower_bound _, sext_upper_bound (by decide) _⟩
  case Ish =>
    have hlt := field_lt w 20 5
    omega
  case U =>
    have hlt := field_lt w 12 20
    omega

/-! ### 30_encoding.md R73: range checks -/

theorem inRange12_iff (n : Int) : inRange12 n = true ↔ -2048 ≤ n ∧ n ≤ 2047 := by simp [inRange12]

theorem inRange20_iff (n : Int) : inRange20 n = true ↔ -524288 ≤ n ∧ n ≤ 524287 := by simp [inRange20]

theorem inRangeU20_iff (n : Nat) : inRangeU20 n = true ↔ 0 ≤ (n : Int) ∧ (n : Int) ≤ 1048575 := by
  rw [inRangeU20, decide_eq_true_iff]
  omega

/-- The operand fields whose range a format sets: the others hold register numbers. -/
def immediateFields : List OperandField := [.imm, .shamt, .off, .u20]

/-- A range check that answers a bad field: either the check holds, or it names the field. -/
theorem check_cases {check : Bool} {P : Prop} {f : OperandField} (hcheck : check = true ↔ P) (hf : f ∈ immediateFields) :
    ((if check then none else some f) = none ∧ P) ∨
      ∃ g ∈ immediateFields, (if check then none else some f) = some g ∧ ¬ P := by
  cases check with
  | true => exact .inl ⟨rfl, hcheck.mp rfl⟩
  | false => exact .inr ⟨f, hf, rfl, fun h => Bool.false_ne_true (hcheck.mpr h)⟩

/-- An instruction has a bad field exactly when its immediate is out of the range of its format. -/
theorem badField_cases (i : Instr) :
    (i.badField = none ∧ ImmediateInRange i.mnemonic i.operands.imm) ∨
      ∃ f ∈ immediateFields, i.badField = some f ∧ ¬ ImmediateInRange i.mnemonic i.operands.imm := by
  cases i with
  | add | sub | and | or | xor | sll | srl | sra | slt | seq | sne | sge | mul | div | rem | ebreak | eread | ewrite =>
    exact .inl ⟨rfl, trivial⟩
  | slli _ _ shamt | srli _ _ shamt | srai _ _ shamt =>
    have hlt := shamt.isLt
    refine .inl ⟨rfl, ?_, ?_⟩ <;> simp only [Instr.operands] <;> omega
  | addi _ _ n | subi _ _ n | andi _ _ n | ori _ _ n | xori _ _ n | slti _ _ n | seqi _ _ n | snei _ _ n | sgei _ _ n
  | muli _ _ n | divi _ _ n | remi _ _ n | lw _ _ n | sw _ _ n | jalr _ _ n | beq _ _ n | bne _ _ n | blt _ _ n
  | bge _ _ n => exact check_cases (inRange12_iff n) (by decide)
  | jal _ n => exact check_cases (inRange20_iff n) (by decide)
  | lui _ n => exact check_cases (inRangeU20_iff n) (by decide)

/-- What the encoder answers: the packed word, or an error that names the immediate. -/
theorem encodeWith_cases (map : OpcodeMap) (i : Instr) :
    (ImmediateInRange i.mnemonic i.operands.imm ∧
        encodeWith map i = .ok (pack i.mnemonic.format (map.row i.mnemonic) i.operands)) ∨
      ∃ f ∈ immediateFields, encodeWith map i = .error ⟨f⟩ ∧ ¬ ImmediateInRange i.mnemonic i.operands.imm := by
  rcases badField_cases i with ⟨hnone, hin⟩ | ⟨f, hf, hsome, hout⟩
  · exact .inl ⟨hin, by simp only [encodeWith, hnone]⟩
  · exact .inr ⟨f, hf, by simp only [encodeWith, hsome], hout⟩

/-- An instruction encodes to a word exactly when its immediate is in range and the word is its packing. -/
theorem encodeWith_eq_ok_iff (map : OpcodeMap) (i : Instr) (w : Word) :
    encodeWith map i = .ok w ↔ ImmediateInRange i.mnemonic i.operands.imm ∧
      w = pack i.mnemonic.format (map.row i.mnemonic) i.operands := by
  rcases encodeWith_cases map i with ⟨hin, hok⟩ | ⟨f, -, herr, hout⟩
  · rw [hok, Except.ok.injEq, eq_comm]
    exact (and_iff_right hin).symm
  · simp only [herr, hout, false_and, reduceCtorEq]

theorem wellFormed_iff (i : Instr) : i.wellFormed = true ↔ ImmediateInRange i.mnemonic i.operands.imm := by
  rcases badField_cases i with ⟨hnone, hin⟩ | ⟨f, -, hsome, hout⟩
  · simp only [Instr.wellFormed, hnone, hin, Option.isNone_none]
  · simp only [Instr.wellFormed, hsome, hout, Option.isNone_some, Bool.false_eq_true]

/-! ### 30_encoding.md R84, R85: decode and encode -/

/-- A word decodes to an instruction exactly when the classifier finds its row and the word holds its operands. -/
theorem decodeWith_eq_ok_iff (map : OpcodeMap) (w : Word) (i : Instr) :
    decodeWith map w = .ok i ↔ ∃ m, classify map w = some m ∧ m.build (unpack m.format w) = i := by
  rcases decodeWith_cases map w with ⟨m, hm, hok⟩ | ⟨hnone, why, herr⟩
  · rw [hok, hm]
    simp
  · rw [herr, hnone]
    simp

/-- Settles O3: a row accepts a word exactly when the word is the row's packing of the operands read from it, and operands
in range are read back from their packing. -/
theorem everyValidMapDecodesExactlyWhatItEncodes : Obligations.EveryValidMapDecodesExactlyWhatItEncodes := by
  intro map hv i w
  rw [decodeWith_eq_ok_iff, encodeWith_eq_ok_iff]
  constructor
  · rintro ⟨m, hm, rfl⟩
    have hw := (accepts_iff_eq_pack map m w).mp (accepts_of_classify hm)
    simp only [mnemonic_build, operands_build, restrict_unpack]
    exact ⟨immediateInRange_unpack m w, hw⟩
  · rintro ⟨hin, rfl⟩
    have hread := unpack_pack (map.row i.mnemonic) (restrict_operands i) hin
    refine ⟨i.mnemonic, (classify_eq_some hv _ _).mpr ?_, ?_⟩
    · rw [accepts_iff_eq_pack, hread]
    · rw [hread, build_operands]

/-- Settles O4: the default map is valid, and the well-formed instructions are those that encode. -/
theorem decodeAndEncodeAreInverse : Obligations.DecodeAndEncodeAreInverse := by
  intro i
  have hinv := everyValidMapDecodesExactlyWhatItEncodes opcodeMap opcodeMap_valid i
  constructor
  · intro hwf
    have hok := (encodeWith_eq_ok_iff opcodeMap i _).mpr ⟨(wellFormed_iff i).mp hwf, rfl⟩
    exact ⟨_, hok, (hinv _).mpr hok⟩
  · intro w hdecode
    have hok := (hinv w).mp hdecode
    obtain ⟨hin, -⟩ := (encodeWith_eq_ok_iff opcodeMap i w).mp hok
    exact ⟨hok, (wellFormed_iff i).mpr hin⟩

/-! ### 30_encoding.md R73: the encoder's requests -/

/-- What R73 asks of a request. -/
def Request.InRange (r : Request) : Prop := r.rd ≤ 31 ∧ r.rs1 ≤ 31 ∧ r.rs2 ≤ 31 ∧ ImmediateInRange r.mnemonic r.imm

theorem not_inRange_of_fieldOutOfRange {r : Request} {f : OperandField} (h : FieldOutOfRange r f) : ¬ r.InRange := by
  rintro ⟨hrd, hrs1, hrs2, himm⟩
  cases f with
  | rd => exact absurd hrd (Nat.not_le.mpr h)
  | rs1 => exact absurd hrs1 (Nat.not_le.mpr h)
  | rs2 => exact absurd hrs2 (Nat.not_le.mpr h)
  | imm | shamt | off | u20 => exact h himm

theorem fieldOutOfRange_immediate {r : Request} {f : OperandField} (hf : f ∈ immediateFields)
    (h : ¬ ImmediateInRange r.mnemonic r.imm) : FieldOutOfRange r f := by
  cases f with
  | rd | rs1 | rs2 => exact absurd hf (by decide)
  | imm | shamt | off | u20 => exact h

/-- The operands that a request hands on, once its own checks have passed. -/
def Request.operands (r : Request) : Operands :=
  ⟨Fin.ofNat 32 r.rd, Fin.ofNat 32 r.rs1, Fin.ofNat 32 r.rs2, r.imm⟩

/-- The checks made on a request name a bad field, or they leave an instruction whose immediate is in range exactly when that
of the request is: a shift amount has not been reduced modulo 32, nor a negative `u20` cut off at 0. -/
theorem Request.badField_cases (r : Request) :
    (r.badField = none ∧ r.rd ≤ 31 ∧ r.rs1 ≤ 31 ∧ r.rs2 ≤ 31 ∧
        (ImmediateInRange r.mnemonic (r.mnemonic.format.restrict r.operands).imm ↔ ImmediateInRange r.mnemonic r.imm)) ∨
      ∃ f, r.badField = some f ∧ FieldOutOfRange r f := by
  by_cases hrd : 31 < r.rd
  · exact .inr ⟨.rd, if_pos hrd, hrd⟩
  by_cases hrs1 : 31 < r.rs1
  · exact .inr ⟨.rs1, (if_neg hrd).trans (if_pos hrs1), hrs1⟩
  by_cases hrs2 : 31 < r.rs2
  · exact .inr ⟨.rs2, (if_neg hrd).trans ((if_neg hrs1).trans (if_pos hrs2)), hrs2⟩
  rw [Request.badField, if_neg hrd, if_neg hrs1, if_neg hrs2]
  rw [Nat.not_lt] at hrd hrs1 hrs2
  simp only [hrd, hrs1, hrs2, true_and, ImmediateInRange]
  cases hf : r.mnemonic.format with
  | R | I | S | B | Uj | Ehalt | Eread | Ewrite => exact .inl ⟨rfl, .rfl⟩
  | Ish =>
    by_cases hbad : r.imm < 0 ∨ 31 < r.imm
    · exact .inr ⟨.shamt, if_pos hbad, by simp only [FieldOutOfRange, ImmediateInRange, hf]; omega⟩
    · exact .inl ⟨if_neg hbad, by simp only [Format.restrict, Request.operands, Fin.val_ofNat]; omega⟩
  | U =>
    by_cases hbad : r.imm < 0
    · exact .inr ⟨.u20, if_pos hbad, by simp only [FieldOutOfRange, ImmediateInRange, hf]; omega⟩
    · exact .inl ⟨if_neg hbad, by simp only [Format.restrict, Request.operands]; omega⟩

/-- What the encoder answers to a request: a word, or an error that names a bad operand. -/
theorem encodeRequestWith_cases (map : OpcodeMap) (r : Request) :
    (r.InRange ∧ ∃ w, encodeRequestWith map r = .ok w) ∨
      ∃ f, encodeRequestWith map r = .error ⟨f⟩ ∧ FieldOutOfRange r f := by
  unfold encodeRequestWith
  rcases r.badField_cases with ⟨hnone, hrd, hrs1, hrs2, himm⟩ | ⟨f, hsome, hout⟩
  · rw [hnone]
    have hencode := encodeWith_cases map (r.mnemonic.build r.operands)
    simp only [mnemonic_build, operands_build, himm] at hencode
    rcases hencode with ⟨hin, hok⟩ | ⟨f, hf, herr, hout⟩
    · exact .inl ⟨⟨hrd, hrs1, hrs2, hin⟩, _, hok⟩
    · exact .inr ⟨f, herr, fieldOutOfRange_immediate hf hout⟩
  · rw [hsome]
    exact .inr ⟨f, rfl, hout⟩

/-- Settles O5: the encoder's two answers exclude each other, and so do their conditions. -/
theorem encoderRefusesExactlyOutOfRangeOperands : Obligations.EncoderRefusesExactlyOutOfRangeOperands := by
  intro r
  rcases encodeRequestWith_cases opcodeMap r with ⟨hin, w, hok⟩ | ⟨f, herr, hout⟩
  · refine ⟨⟨fun _ => ⟨w, hok⟩, fun _ => hin⟩, fun f herr => ?_⟩
    rw [encodeRequest, hok] at herr
    cases herr
  · refine ⟨⟨fun hin => absurd hin (not_inRange_of_fieldOutOfRange hout), ?_⟩, fun g herr' => ?_⟩
    · rintro ⟨w, hok⟩
      rw [encodeRequest, herr] at hok
      cases hok
    · rw [encodeRequest, herr] at herr'
      cases herr'
      exact hout

/-! ### 30_encoding.md R89: mask and match -/

theorem field_and_of_ones {mask : Word} {lo width : Nat} (w : Word) (h : field mask lo width = 2 ^ width - 1) :
    field (w &&& mask) lo width = field w lo width := by
  refine Nat.eq_of_testBit_eq fun k => ?_
  have hmask := field_testBit mask lo width k
  rw [h, Nat.testBit_two_pow_sub_one] at hmask
  rw [field_testBit, field_testBit, BitVec.getLsbD_and, ← Bool.and_assoc, Bool.and_right_comm, ← hmask, Bool.and_comm]

theorem field_and_of_zero {mask : Word} {lo width : Nat} (w : Word) (h : field mask lo width = 0) :
    field (w &&& mask) lo width = 0 := by
  refine Nat.eq_of_testBit_eq fun k => ?_
  have hmask := field_testBit mask lo width k
  rw [h, Nat.zero_testBit] at hmask
  rw [field_testBit, BitVec.getLsbD_and, ← Bool.and_assoc, Bool.and_right_comm, ← hmask, Bool.false_and, Nat.zero_testBit]

/-- Settles O7: the mask keeps the fields that a row fixes and clears the others, as the row's packing of operands 0 does. -/
theorem rowsAcceptByMaskAndMatch : Obligations.RowsAcceptByMaskAndMatch := by
  intro map m w
  unfold OpcodeMap.matchWord OpcodeMap.accepts
  rw [eq_pack_iff]
  generalize map.row m = c
  cases m.format <;>
    simp (disch := decide) only [Format.slices, Format.mask, List.forall_mem_cons, List.not_mem_nil, false_imp_iff,
      implies_true, and_true, true_and, field_and_of_ones, field_and_of_zero, toNat_emod_two_pow, Nat.cast_inj,
      Int.zero_emod, Int.zero_ediv, Nat.cast_zero, Nat.cast_eq_zero, Fin.val_zero, Bool.and_eq_true, beq_iff_eq, and_assoc]
  case Ehalt | Eread | Ewrite => tauto

/-! ### 30_encoding.md R83: words with no instruction -/

/-- The opcodes of the default map are the ten of R75. -/
theorem opcode_mem_ten (m : Mnemonic) :
    (opcodeMap.row m).opcode.toNat ∈ [0x33, 0x13, 0x0B, 0x03, 0x23, 0x63, 0x67, 0x6F, 0x37, 0x73] := by
  rw [row_opcodeMap]
  cases m <;> decide

theorem decode_error_of_opcode {w : Word}
    (h : field w 0 7 ∉ [0x33, 0x13, 0x0B, 0x03, 0x23, 0x63, 0x67, 0x6F, 0x37, 0x73]) : ∃ why, decode w = .error why := by
  rcases decodeWith_cases opcodeMap w with ⟨m, hm, -⟩ | ⟨-, herr⟩
  · obtain ⟨hopcode, -⟩ := accepts_codes (accepts_of_classify hm)
    exact absurd (hopcode ▸ opcode_mem_ten m) h
  · exact herr

/-- Settles O8: a row accepts no word with another opcode than its own, and each row has one of the ten. -/
theorem unassignedOpcodesAreInvalid : Obligations.UnassignedOpcodesAreInvalid :=
  ⟨fun _ => decode_error_of_opcode, decode_error_of_opcode (by decide), decode_error_of_opcode (by decide),
    fun _ hzero => decode_error_of_opcode (by rw [hzero]; decide)⟩

/-- Settles O9: each word is the encoding of the instruction beside it. -/
theorem specWordsDecode : Obligations.SpecWordsDecode := by
  simp only [Obligations.SpecWordsDecode, decode, everyValidMapDecodesExactlyWhatItEncodes opcodeMap opcodeMap_valid]
  exact ⟨rfl, rfl, rfl, rfl, rfl, rfl, rfl, rfl, rfl, rfl, rfl, rfl, rfl⟩

/-! ### 30_encoding.md R64-R70: which bit of the word is which bit of each operand -/

theorem registerBits_regField (w : Word) (lo : Nat) : RegisterBits w lo (regField w lo) := by
  intro k hk
  rw [val_regField, field_testBit, decide_eq_true hk, Bool.true_and]

theorem unsignedBits_field (w : Word) (lo width : Nat) : UnsignedBits w (field w lo width) width fun k => k + lo := by
  refine ⟨field_lt w lo width, fun k hk => ?_⟩
  rw [field_testBit, decide_eq_true hk, Bool.true_and, Nat.add_comm]

/-- The low bits of a wrapped sign extension are those of the number that was extended. -/
theorem wrap_sext_getLsbD {n k : Nat} (hn : n ≤ 32) (hk : k < n) (v : Nat) :
    (wrap (sext n v)).getLsbD k = v.testBit k := by
  have hfield : field (wrap (sext n v)) 0 n = v % 2 ^ n := by
    have h := field_wrap (sext n v) hn
    rw [sext_emod] at h
    exact_mod_cast h
  have hbit := field_testBit (wrap (sext n v)) 0 n k
  rw [hfield, Nat.testBit_mod_two_pow, decide_eq_true hk, Bool.true_and, Bool.true_and, Nat.zero_add] at hbit
  exact hbit.symm

/-- A sign-extended number has its bits where the number that was extended has them. -/
theorem signedBits_sext {w : Word} {v n : Nat} {source : Nat → Nat} (hpos : 1 ≤ n) (hn : n ≤ 32)
    (h : ∀ k, k < n → v.testBit k = w.getLsbD (source k)) : SignedBits w (sext n v) n source :=
  ⟨sext_lower_bound _, Int.lt_of_le_sub_one (sext_upper_bound hpos _),
    fun k hk => (wrap_sext_getLsbD hn hk v).trans (h k hk)⟩

theorem signedBits_field (w : Word) (lo : Nat) {width : Nat} (hpos : 1 ≤ width) (hwidth : width ≤ 32) :
    SignedBits w (sext width (field w lo width)) width fun k => k + lo :=
  signedBits_sext hpos hwidth (unsignedBits_field w lo width).2

/-- The bits of a concatenation. -/
theorem cat_testBit (a : Nat) {width b : Nat} (hb : b < 2 ^ width) (k : Nat) :
    (cat a width b).testBit k = if k < width then b.testBit k else a.testBit (k - width) := by
  rw [cat, Nat.mul_comm, Nat.testBit_two_pow_mul_add a hb]

theorem signedBits_storeImmediate (w : Word) :
    SignedBits w (sext 12 (cat (field w 25 7) 5 (field w 7 5) : Nat)) 12 storeImmediateBit := by
  refine signedBits_sext (by decide) (by decide) fun k hk => ?_
  simp only [cat_testBit _ (field_lt w 7 5), field_testBit, storeImmediateBit]
  by_cases h : 5 ≤ k
  · simp [h, show ¬ k < 5 by omega, show k - 5 < 7 by omega, show 25 + (k - 5) = k + 20 by omega]
  · simp [h, show k < 5 by omega, Nat.add_comm]

theorem signedBits_branchOffset (w : Word) :
    SignedBits w (sext 12 (cat (cat (cat (field w 31 1) 1 (field w 7 1)) 6 (field w 25 6)) 4 (field w 8 4) : Nat)) 12
      branchOffsetBit := by
  refine signedBits_sext (by decide) (by decide) fun k hk => ?_
  simp only [cat_testBit _ (field_lt w 8 4), cat_testBit _ (field_lt w 25 6), cat_testBit _ (field_lt w 7 1),
    field_testBit, branchOffsetBit]
  interval_cases k <;> simp

/-- The operands of a row, read from a word by the layout of its format. -/
theorem operandBits_build (m : Mnemonic) (w : Word) : OperandBits w (m.build (unpack m.format w)) := by
  have hrd := registerBits_regField w 7
  have hrs1 := registerBits_regField w 15
  have hrs2 := registerBits_regField w 20
  cases m with
  | add | sub | and | or | xor | sll | srl | sra | slt | seq | sne | sge | mul | div | rem => exact ⟨hrd, hrs1, hrs2⟩
  | addi | subi | andi | ori | xori | slti | seqi | snei | sgei | muli | divi | remi | lw | jalr =>
    exact ⟨hrd, hrs1, signedBits_field w 20 (by decide) (by decide)⟩
  | slli | srli | srai =>
    refine ⟨hrd, hrs1, ?_⟩
    have hshamt : (Fin.ofNat 32 (unpack .Ish w).imm.toNat).val = field w 20 5 := Nat.mod_eq_of_lt (field_lt w 20 5)
    exact hshamt ▸ unsignedBits_field w 20 5
  | lui => exact ⟨hrd, unsignedBits_field w 12 20⟩
  | jal => exact ⟨hrd, signedBits_field w 12 (by decide) (by decide)⟩
  | sw => exact ⟨hrs1, hrs2, signedBits_storeImmediate w⟩
  | beq | bne | blt | bge => exact ⟨hrs1, hrs2, signedBits_branchOffset w⟩
  | ebreak => exact trivial
  | eread => exact hrd
  | ewrite => exact hrs1

/-! ### 30_encoding.md R75-R83: the handler tables -/

/-- The three code fields of a word, where the row's format fixes them, are the default numbers of the row. -/
def Mnemonic.HasCodes (m : Mnemonic) (opcode funct3 funct7 : Nat) : Prop :=
  opcode = (defaultCodes m).opcode.toNat ∧ (m.format.fixesFunct3 = true → funct3 = (defaultCodes m).funct3.toNat) ∧
    (m.format.fixesFunct7 = true → funct7 = (defaultCodes m).funct7.toNat)

theorem hasCodes_of_accepts {m : Mnemonic} {w : Word} (h : opcodeMap.accepts m w = true) :
    m.HasCodes (field w 0 7) (field w 12 3) (field w 25 7) := by
  simpa only [Mnemonic.HasCodes, row_opcodeMap] using accepts_codes h

/-- Outside opcode SYSTEM the codes are all that a row asks of a word. -/
theorem accepts_of_hasCodes {m : Mnemonic} {w : Word} (h : m.HasCodes (field w 0 7) (field w 12 3) (field w 25 7))
    (hsystem : field w 0 7 ≠ 0x73) : opcodeMap.accepts m w = true := by
  obtain ⟨hop, h3, h7⟩ := h
  unfold OpcodeMap.accepts
  cases hf : m.format with
  | Ehalt | Eread | Ewrite =>
    have : field w 0 7 = 0x73 := by rw [hop]; revert hf; cases m <;> decide
    exact absurd this hsystem
  | R | Ish => simp [hop, h3, h7, hf, Format.fixesFunct3, Format.fixesFunct7]
  | I | S | B => simp [hop, h3, hf, Format.fixesFunct3]
  | U | Uj => simp [hop]

theorem hasCodes_of_handlerOp {f7 f3 : Nat} {m : Mnemonic} (h : handlerOp f7 f3 = some m) : m.HasCodes 0x33 f3 f7 := by
  revert h
  fun_cases handlerOp f7 f3 <;> rintro ⟨⟩ <;> exact ⟨rfl, fun _ => rfl, fun _ => rfl⟩

theorem hasCodes_of_handlerOpImm {f7 f3 : Nat} {m : Mnemonic} (h : handlerOpImm f7 f3 = some m) :
    m.HasCodes 0x13 f3 f7 := by
  revert h
  fun_cases handlerOpImm f7 f3 <;> rintro ⟨⟩ <;> refine ⟨rfl, fun _ => rfl, ?_⟩ <;>
    simp_all [Mnemonic.format, Format.fixesFunct7, defaultCodes]

theorem hasCodes_of_handlerOpImmExt {f3 : Nat} (f7 : Nat) {m : Mnemonic} (h : handlerOpImmExt f3 = some m) :
    m.HasCodes 0x0B f3 f7 := by
  revert h
  fun_cases handlerOpImmExt f3 <;> rintro ⟨⟩ <;> exact ⟨rfl, fun _ => rfl, nofun⟩

theorem hasCodes_of_handlerBranch {f3 : Nat} (f7 : Nat) {m : Mnemonic} (h : handlerBranch f3 = some m) :
    m.HasCodes 0x63 f3 f7 := by
  revert h
  fun_cases handlerBranch f3 <;> rintro ⟨⟩ <;> exact ⟨rfl, fun _ => rfl, nofun⟩

/-- The ten bits that R82 asks of `eread` are its two unused register fields. -/
theorem field_15_10_eq_zero_iff (w : Word) : field w 15 10 = 0 ↔ field w 15 5 = 0 ∧ field w 20 5 = 0 := by
  unfold field
  omega

theorem accepts_of_handlerSystem {w : Word} {m : Mnemonic} (h : handlerSystem w = some m) (hop : field w 0 7 = 0x73) :
    opcodeMap.accepts m w = true := by
  unfold handlerSystem at h
  split_ifs at h with hebreak heread hewrite
  · cases h
    subst hebreak
    decide
  · cases h
    obtain ⟨h7, hzero, h3⟩ := heread
    obtain ⟨hrs1, hrs2⟩ := (field_15_10_eq_zero_iff w).mp hzero
    simp [OpcodeMap.accepts, Mnemonic.format, defaultCodes, hop, h3, h7, hrs1, hrs2]
  · cases h
    obtain ⟨h7, hrs2, h3, hrd⟩ := hewrite
    simp [OpcodeMap.accepts, Mnemonic.format, defaultCodes, hop, h3, h7, hrd, hrs2]

/-- The handler tables give only rows that accept the word. The cases are the arms of `handlerTop`, an arm that tests funct3
being two of them. -/
theorem accepts_of_handlerTop {w : Word} {m : Mnemonic} (h : handlerTop w = some m) : opcodeMap.accepts m w = true := by
  revert h
  fun_cases handlerTop w with
  | case1 hop =>
    exact fun h => accepts_of_hasCodes (hop ▸ hasCodes_of_handlerOp h) (by omega)
  | case2 hop =>
    exact fun h => accepts_of_hasCodes (hop ▸ hasCodes_of_handlerOpImm h) (by omega)
  | case3 hop =>
    exact fun h => accepts_of_hasCodes (hop ▸ hasCodes_of_handlerOpImmExt _ h) (by omega)
  | case8 hop =>
    exact fun h => accepts_of_hasCodes (hop ▸ hasCodes_of_handlerBranch _ h) (by omega)
  | case4 hop h3 | case6 hop h3 | case9 hop h3 =>
    rintro ⟨⟩
    exact accepts_of_hasCodes ⟨hop, fun _ => h3, nofun⟩ (by omega)
  | case11 hop | case12 hop =>
    rintro ⟨⟩
    exact accepts_of_hasCodes ⟨hop, nofun, nofun⟩ (by omega)
  | case13 hop => exact fun h => accepts_of_handlerSystem h hop
  | case5 | case7 | case10 | case14 => exact nofun

/-- The handler tables give the row that accepts the word: its codes choose the arm. -/
theorem handlerTop_of_accepts {w : Word} {m : Mnemonic} (h : opcodeMap.accepts m w = true) : handlerTop w = some m := by
  obtain ⟨hop, h3, h7⟩ := hasCodes_of_accepts h
  unfold handlerTop
  cases m with
  | add | sub | and | or | xor | sll | srl | sra | slt | seq | sne | sge | mul | div | rem | slli | srli | srai =>
    simp [hop, h3 rfl, h7 rfl, defaultCodes, handlerOp, handlerOpImm]
  | addi | subi | andi | ori | xori | slti | seqi | snei | sgei | muli | divi | remi | lw | jalr | sw | beq | bne | blt
  | bge => simp [hop, h3 rfl, defaultCodes, handlerOpImm, handlerOpImmExt, handlerBranch]
  | lui | jal => simp [hop, defaultCodes]
  | ebreak =>
    have hw : w = 0x00000073 := (accepts_iff_eq_pack opcodeMap .ebreak w).mp h
    subst hw
    rfl
  | eread =>
    simp only [OpcodeMap.accepts, Mnemonic.format, Bool.and_eq_true, beq_iff_eq] at h
    obtain ⟨⟨-, hrs1⟩, hrs2⟩ := h
    have hzero := (field_15_10_eq_zero_iff w).mpr ⟨hrs1, hrs2⟩
    have hebreak : w ≠ 0x00000073 := fun hw => absurd (hw ▸ h7 rfl) (by decide)
    rw [hop]
    change handlerSystem w = _
    rw [handlerSystem, if_neg hebreak, if_pos ⟨h7 rfl, hzero, h3 rfl⟩]
  | ewrite =>
    simp only [OpcodeMap.accepts, Mnemonic.format, Bool.and_eq_true, beq_iff_eq] at h
    obtain ⟨⟨-, hrd⟩, hrs2⟩ := h
    have hebreak : w ≠ 0x00000073 := fun hw => absurd (hw ▸ h7 rfl) (by decide)
    have heread : ¬ (field w 25 7 = 1 ∧ field w 15 10 = 0 ∧ field w 12 3 = 0) :=
      fun ⟨hcode, _⟩ => absurd (hcode ▸ h7 rfl) (by decide)
    rw [hop]
    change handlerSystem w = _
    rw [handlerSystem, if_neg hebreak, if_neg heread, if_pos ⟨h7 rfl, hrs2, h3 rfl, hrd⟩]

/-- Settles O6: both demultiplexers find the row that accepts the word, and each operand's bits are those of its layout. -/
theorem tableDecoderAgreesWithHandlerTables : Obligations.TableDecoderAgreesWithHandlerTables := by
  constructor
  · intro w
    have hclassify : classify opcodeMap w = handlerTop w :=
      Option.ext fun m => (classify_eq_some opcodeMap_valid w m).trans ⟨handlerTop_of_accepts, accepts_of_handlerTop⟩
    refine ⟨hclassify, ?_⟩
    rw [← hclassify]
    rcases decodeWith_cases opcodeMap w with ⟨m, hm, hok⟩ | ⟨hnone, why, herr⟩
    · rw [decode, hok, hm]
      rfl
    · rw [decode, herr, hnone]
      rfl
  · intro map w i hdecode
    obtain ⟨m, -, rfl⟩ := (decodeWith_eq_ok_iff map w i).mp hdecode
    exact operandBits_build m w

end Sys2Proof

/-! ### 40_integer_computational.md R101-R116: the ALU in integer arithmetic

Addition, subtraction and multiplication are stated with a wrapped integer as second operand: a word is the wrap of its
signed reading, and the operand that an immediate gives is a wrapped integer by definition. -/

namespace Sys2Proof.Machine

theorem wrap_sub (m n : Int) : wrap (m - n) = wrap m - wrap n := by
  simp only [wrap, Int.sub_eq_add_neg, BitVec.ofInt_add, BitVec.ofInt_neg, BitVec.sub_eq_add_neg]

theorem alu_add_wrap (p : DivZeroPolicy) (a : Word) (n : Int) :
    alu p .add a (wrap n) = .value (wrap (sint a + n)) := by
  simp only [alu, wrap, BitVec.ofInt_add, BitVec.ofInt_toInt]

theorem alu_sub_wrap (p : DivZeroPolicy) (a : Word) (n : Int) :
    alu p .sub a (wrap n) = .value (wrap (sint a - n)) := by
  simp only [alu, wrap_sub, BitVec.ofInt_toInt]

theorem alu_mul_wrap (p : DivZeroPolicy) (a : Word) (n : Int) :
    alu p .mul a (wrap n) = .value (wrap (sint a * n)) := by
  simp only [alu, wrap, BitVec.ofInt_mul, BitVec.ofInt_toInt]

/-- The low 32 bits of a product are the same for both readings of the operands. -/
theorem wrap_sint_mul_sint (a b : Word) : wrap (sint a * sint b) = wrap ((uint a : Int) * uint b) := by
  simp only [wrap, BitVec.ofInt_mul, BitVec.ofInt_toInt, BitVec.ofInt_natCast, BitVec.ofNat_toNat, BitVec.setWidth_eq]

/-- Settles O10: a word is the wrap of its signed reading, and the logic operations are the library's, bit by bit. -/
theorem aluArithmeticAndLogic : Obligations.AluArithmeticAndLogic := by
  intro p a b
  have hadd := alu_add_wrap p a (sint b)
  have hsub := alu_sub_wrap p a (sint b)
  have hmul := alu_mul_wrap p a (sint b)
  rw [wrap, BitVec.ofInt_toInt] at hadd hsub hmul
  exact ⟨hadd, hsub, hmul, wrap_sint_mul_sint a b, ⟨_, rfl, fun _ => BitVec.getLsbD_and⟩,
    ⟨_, rfl, fun _ => BitVec.getLsbD_or⟩, _, rfl, fun _ => BitVec.getLsbD_xor⟩

theorem shiftLeft_eq_wrap (a : Word) (n : Nat) : a <<< n = wrap ((uint a : Int) * 2 ^ n) := by
  apply BitVec.eq_of_toNat_eq
  have hcast : (uint a : Int) * 2 ^ n = ((uint a * 2 ^ n : Nat) : Int) := by push_cast; rfl
  rw [hcast, wrap, BitVec.ofInt_natCast, BitVec.toNat_ofNat, BitVec.toNat_shiftLeft, Nat.shiftLeft_eq]

theorem sshiftRight_eq_wrap (a : Word) (n : Nat) : a.sshiftRight n = wrap (Int.fdiv (sint a) (2 ^ n)) := by
  rw [BitVec.sshiftRight_eq, Int.shiftRight_eq_div_pow, Int.fdiv_eq_ediv_of_nonneg _ (by positivity)]
  push_cast
  rfl

/-- Settles O11: a left shift multiplies and a right shift divides, the signed reading with the floor. -/
theorem aluShiftsByLowFiveBits : Obligations.AluShiftsByLowFiveBits := by
  intro p a b
  refine ⟨?_, ⟨a >>> shiftAmount b, rfl, ?_⟩, ?_⟩
  · rw [alu, shiftLeft_eq_wrap, shiftAmount]
  · rw [uint, BitVec.toNat_ushiftRight, Nat.shiftRight_eq_div_pow, shiftAmount]
  · rw [alu, sshiftRight_eq_wrap, shiftAmount]

theorem truthWord_lessThan (a b : Word) : truthWord (lessThan a b) = if sint a < sint b then 1 else 0 := by
  simp only [truthWord, lessThan, BitVec.slt_iff_toInt_lt]

theorem truthWord_equalTo (a b : Word) : truthWord (equalTo a b) = if a = b then 1 else 0 := by
  simp only [truthWord, equalTo, beq_iff_eq]

/-- A negated comparison gives the other truth value. -/
theorem truthWord_not (c : Bool) : truthWord (!c) = 1 - truthWord c := by
  cases c <;> rfl

/-- Settles O12: SLT and SEQ are their comparisons, SNE and SGE the negations of these. -/
theorem aluComparisonsGiveOneOrZero : Obligations.AluComparisonsGiveOneOrZero := by
  intro p a b
  simp only [alu, AluResult.value.injEq]
  refine ⟨truthWord_lessThan a b, truthWord_equalTo a b, ?_, ?_, _, _, rfl, rfl, truthWord_not _⟩
  · rw [truthWord_not, truthWord_equalTo]
    by_cases h : a = b <;> simp [h]
  · rw [truthWord_not, truthWord_lessThan]
    by_cases h : sint a < sint b
    · simp [h, Int.not_le.mpr h]
    · simp [h, Int.not_lt.mp h]

theorem guardZero_of_ne_zero (p : DivZeroPolicy) {b : Word} (v : Word) (hb : b ≠ 0) :
    guardZero p b v = .value v := if_neg hb

theorem alu_div_of_ne_zero (p : DivZeroPolicy) (a : Word) {b : Word} (hb : b ≠ 0) :
    alu p .div a b = .value (wrap (Int.tdiv (sint a) (sint b))) := by
  have hquot : a.sdiv b = wrap (Int.tdiv (sint a) (sint b)) :=
    BitVec.eq_of_toInt_eq ((BitVec.toInt_sdiv a b).trans (BitVec.toInt_ofInt _).symm)
  rw [alu, guardZero_of_ne_zero p _ hb, hquot]

theorem alu_rem_of_ne_zero (p : DivZeroPolicy) (a : Word) {b : Word} (hb : b ≠ 0) :
    alu p .rem a b = .value (a.srem b) := guardZero_of_ne_zero p _ hb

theorem srem_eq_wrap (a b : Word) : a.srem b = wrap (sint a - sint b * Int.tdiv (sint a) (sint b)) := by
  rw [← Int.tmod_def, sint, sint, ← BitVec.toInt_srem, wrap, BitVec.ofInt_toInt]

/-- Under the policy `zero` a zero divisor gives 0. -/
theorem alu_zero_divisor {op : AluOp} (hop : op = .div ∨ op = .rem) (a : Word) : alu .zero op a 0 = .value 0 := by
  obtain rfl | rfl := hop <;> rfl

/-- R114's reading of a quotient that is rounded toward zero: the product of the signs and the quotient of the sizes. -/
theorem tdiv_eq_sign_mul_natAbs_div (m n : Int) : m.tdiv n = m.sign * n.sign * (m.natAbs / n.natAbs : Nat) := by
  calc m.tdiv n
      = (m.tdiv n).sign * (m.tdiv n).natAbs := (Int.sign_mul_natAbs _).symm
    _ = (if m.natAbs < n.natAbs then 0 else m.sign * n.sign) * (m.natAbs / n.natAbs : Nat) := by
        rw [Int.sign_tdiv, Int.natAbs_tdiv]
        rfl
    _ = m.sign * n.sign * (m.natAbs / n.natAbs : Nat) := by
        by_cases hlt : m.natAbs < n.natAbs
        · simp [hlt, Nat.div_eq_of_lt hlt]
        · rw [if_neg hlt]

theorem sint_ne_zero {b : Word} (hb : b ≠ 0) : sint b ≠ 0 := fun h => hb (BitVec.eq_of_toInt_eq h)

/-- R115's sign of the remainder. -/
theorem sint_srem_sign (a b : Word) : sint (a.srem b) = 0 ∨ (sint (a.srem b)).sign = (sint a).sign := by
  rw [sint, BitVec.toInt_srem]
  by_cases hdvd : b.toInt ∣ a.toInt
  · exact .inl (Int.tmod_eq_zero_of_dvd hdvd)
  · exact .inr (by rw [Int.sign_tmod, if_neg hdvd])

/-- R115's size of the remainder. -/
theorem sint_srem_natAbs_lt (a : Word) {b : Word} (hb : b ≠ 0) : (sint (a.srem b)).natAbs < (sint b).natAbs := by
  rw [sint, BitVec.toInt_srem, Int.natAbs_tmod]
  exact Nat.mod_lt _ (Int.natAbs_pos.mpr (sint_ne_zero hb))

/-- Settles O13: the model's quotient is the truncated one, and the remainder is the library's for that quotient. -/
theorem aluDivisionTruncates : Obligations.AluDivisionTruncates := by
  intro p a b hb
  rw [← tdiv_eq_sign_mul_natAbs_div]
  exact ⟨alu_div_of_ne_zero p a hb,
    ⟨_, alu_rem_of_ne_zero p a hb, srem_eq_wrap a b, sint_srem_sign a b, sint_srem_natAbs_lt a hb⟩,
    alu_div_of_ne_zero p _ (by decide), alu_rem_of_ne_zero p _ (by decide)⟩

/-! ### 40_integer_computational.md R117, R133: an ALU operation written to rd -/

/-- A write to rd after the pc moved one slot on is the whole effect of an instruction that only writes rd. -/
theorem onlyWritesReg_advance_writeReg (s : State) (rd : Reg) (v : Word) :
    OnlyWritesReg s (s.advance.writeReg rd v) rd v :=
  ⟨fun r => readReg_writeReg s.advance rd r v, rfl, fun _ => rfl, ⟨rfl, rfl⟩, rfl, rfl, rfl, rfl⟩

/-- Where the ALU returns a word, the instruction completes with it. -/
theorem aluInto_completes {op : AluOp} {a b v : Word} {s : State} (rd : Reg)
    (halu : alu s.params.divZeroPolicy op a b = .value v) :
    ∃ t, aluInto op rd a b s = .next t ∧ OnlyWritesReg s t rd v :=
  ⟨_, by rw [aluInto, halu], onlyWritesReg_advance_writeReg s rd v⟩

/-- Where the ALU's word is known by a property, the instruction completes with a word that has it. -/
theorem aluInto_completes_with {op : AluOp} {a b : Word} {s : State} {P : Word → Prop} (rd : Reg)
    (halu : ∃ v, alu s.params.divZeroPolicy op a b = .value v ∧ P v) :
    ∃ t v, aluInto op rd a b s = .next t ∧ OnlyWritesReg s t rd v ∧ P v := by
  obtain ⟨v, hvalue, hP⟩ := halu
  obtain ⟨t, hnext, hframe⟩ := aluInto_completes rd hvalue
  exact ⟨t, v, hnext, hframe, hP⟩

/-- Where the ALU faults, the instruction raises DivideByZero(here) with no other effect. -/
theorem aluInto_traps {op : AluOp} {a b : Word} {s : State} (rd : Reg)
    (halu : alu s.params.divZeroPolicy op a b = .divideByZero) :
    ∃ t, aluInto op rd a b s = .next t ∧ TrappedFrom s t .divideByZero s.pc :=
  ⟨s.takeTrap ⟨.divideByZero, s.pc⟩, by rw [aluInto, halu], rfl, rfl, rfl, rfl, rfl, rfl, rfl, rfl, rfl⟩

theorem aluInto_zero_divisor_traps {s : State} (hpolicy : s.params.divZeroPolicy = .trap) (rd : Reg) (a : Word) :
    (∃ t, aluInto .div rd a 0 s = .next t ∧ TrappedFrom s t .divideByZero s.pc) ∧
      ∃ t, aluInto .rem rd a 0 s = .next t ∧ TrappedFrom s t .divideByZero s.pc :=
  ⟨aluInto_traps rd ((alu_fault_iff _ _ _ _).mpr ⟨.inl rfl, rfl, hpolicy⟩),
    aluInto_traps rd ((alu_fault_iff _ _ _ _).mpr ⟨.inr rfl, rfl, hpolicy⟩)⟩

theorem aluInto_zero_divisor_completes {s : State} (hpolicy : s.params.divZeroPolicy = .zero) (rd : Reg) (a : Word) :
    (∃ t, aluInto .div rd a 0 s = .next t ∧ OnlyWritesReg s t rd 0) ∧
      ∃ t, aluInto .rem rd a 0 s = .next t ∧ OnlyWritesReg s t rd 0 :=
  ⟨aluInto_completes rd (by rw [hpolicy, alu_zero_divisor (.inl rfl)]),
    aluInto_completes rd (by rw [hpolicy, alu_zero_divisor (.inr rfl)])⟩

/-- Settles O14: the four instructions are the ALU's DIV and REM, with a register that reads 0 or the immediate 0. -/
theorem divisionByZeroFollowsPolicy : Obligations.DivisionByZeroFollowsPolicy := by
  have himm : immediateOperand 0 = 0 := rfl
  refine ⟨rfl, fun a => ⟨?_, ?_, alu_zero_divisor (.inl rfl) a, alu_zero_divisor (.inr rfl) a⟩, fun s rd rs1 rs2 => ?_⟩
  · exact (alu_fault_iff _ _ _ _).mpr ⟨.inl rfl, rfl, rfl⟩
  · exact (alu_fault_iff _ _ _ _).mpr ⟨.inr rfl, rfl, rfl⟩
  · simp only [List.forall_mem_cons, List.not_mem_nil, false_implies, implies_true, and_true, exec_div, exec_rem,
      exec_divi, exec_remi, himm]
    refine ⟨fun hpolicy hzero => ?_, fun hpolicy => aluInto_zero_divisor_traps hpolicy rd _,
      fun hpolicy hzero => ?_, fun hpolicy => aluInto_zero_divisor_completes hpolicy rd _⟩
    · rw [hzero]
      exact aluInto_zero_divisor_traps hpolicy rd _
    · rw [hzero]
      exact aluInto_zero_divisor_completes hpolicy rd _

/-! ### 40_integer_computational.md R118-R132: register-register instructions -/

/-- Settles O15, from the ALU's sums, differences and products. -/
theorem addSubMulRegisterResult : Obligations.AddSubMulRegisterResult := by
  intro s rd rs1 rs2
  obtain ⟨hadd, hsub, hmul, -⟩ := aluArithmeticAndLogic s.params.divZeroPolicy (s.readReg rs1) (s.readReg rs2)
  rw [exec_add, exec_sub, exec_mul]
  exact ⟨aluInto_completes rd hadd, aluInto_completes rd hsub, aluInto_completes rd hmul⟩

/-- Settles O16, from the ALU's bitwise operations. -/
theorem logicRegisterResult : Obligations.LogicRegisterResult := by
  intro s rd rs1 rs2
  obtain ⟨-, -, -, -, hand, hor, hxor⟩ :=
    aluArithmeticAndLogic s.params.divZeroPolicy (s.readReg rs1) (s.readReg rs2)
  rw [exec_and, exec_or, exec_xor]
  exact ⟨aluInto_completes_with rd hand, aluInto_completes_with rd hor, aluInto_completes_with rd hxor⟩

/-- Settles O17, from the ALU's shifts. -/
theorem shiftRegisterResult : Obligations.ShiftRegisterResult := by
  intro s rd rs1 rs2
  obtain ⟨hsll, hsrl, hsra⟩ := aluShiftsByLowFiveBits s.params.divZeroPolicy (s.readReg rs1) (s.readReg rs2)
  rw [exec_sll, exec_srl, exec_sra]
  exact ⟨aluInto_completes rd hsll, aluInto_completes_with rd hsrl, aluInto_completes rd hsra⟩

/-- Settles O18, from the ALU's comparisons. -/
theorem compareRegisterResult : Obligations.CompareRegisterResult := by
  intro s rd rs1 rs2
  obtain ⟨hslt, hseq, hsne, hsge, -⟩ :=
    aluComparisonsGiveOneOrZero s.params.divZeroPolicy (s.readReg rs1) (s.readReg rs2)
  rw [exec_slt, exec_seq, exec_sne, exec_sge]
  exact ⟨aluInto_completes rd hslt, aluInto_completes rd hseq, aluInto_completes rd hsne, aluInto_completes rd hsge⟩

/-- A divisor that is not 0 gives the truncated quotient and its remainder. -/
theorem aluInto_division_completes (s : State) (rd : Reg) (a : Word) {b : Word} (hb : b ≠ 0) :
    (∃ t, aluInto .div rd a b s = .next t ∧ OnlyWritesReg s t rd (wrap (Int.tdiv (sint a) (sint b)))) ∧
      ∃ t, aluInto .rem rd a b s = .next t ∧
        OnlyWritesReg s t rd (wrap (sint a - sint b * Int.tdiv (sint a) (sint b))) :=
  ⟨aluInto_completes rd (alu_div_of_ne_zero _ a hb),
    aluInto_completes rd ((alu_rem_of_ne_zero _ a hb).trans (by rw [srem_eq_wrap]))⟩

/-- Settles O19. -/
theorem divideRegisterResult : Obligations.DivideRegisterResult := by
  intro s rd rs1 rs2 hne
  rw [exec_div, exec_rem]
  exact aluInto_division_completes s rd (s.readReg rs1) hne

/-! ### 40_integer_computational.md R134-R149: register-immediate and upper-immediate instructions -/

/-- An immediate in the range of its field is the signed reading of its operand. -/
theorem sint_immediateOperand {imm : Int} (hlow : -2048 ≤ imm) (hhigh : imm ≤ 2047) :
    sint (immediateOperand imm) = imm :=
  BitVec.toInt_ofInt_eq_self (by decide) (by norm_num; omega) (by norm_num; omega)

/-- The low five bits of a shift amount are the amount. -/
theorem uint_shamtOperand_mod (shamt : Fin 32) : uint (shamtOperand shamt) % 32 = shamt.val := by
  have hlt := shamt.isLt
  rw [shamtOperand, uint, BitVec.toNat_ofNat]
  omega

/-- Settles O20, from the ALU's operations on a wrapped integer. -/
theorem addSubMulImmediateResult : Obligations.AddSubMulImmediateResult := by
  intro s rd rs1 imm
  rw [exec_addi, exec_subi, exec_muli, immediateOperand]
  exact ⟨aluInto_completes rd (alu_add_wrap _ _ imm), aluInto_completes rd (alu_sub_wrap _ _ imm),
    aluInto_completes rd (alu_mul_wrap _ _ imm)⟩

/-- Settles O21, from the ALU's bitwise operations. -/
theorem logicImmediateResult : Obligations.LogicImmediateResult := by
  intro s rd rs1 imm
  obtain ⟨-, -, -, -, hand, hor, hxor⟩ := aluArithmeticAndLogic s.params.divZeroPolicy (s.readReg rs1) (wrap imm)
  rw [exec_andi, exec_ori, exec_xori, immediateOperand]
  exact ⟨aluInto_completes_with rd hand, aluInto_completes_with rd hor, aluInto_completes_with rd hxor⟩

/-- Settles O22, from the ALU's shifts. -/
theorem shiftImmediateResult : Obligations.ShiftImmediateResult := by
  intro s rd rs1 shamt
  obtain ⟨hsll, hsrl, hsra⟩ :=
    aluShiftsByLowFiveBits s.params.divZeroPolicy (s.readReg rs1) (shamtOperand shamt)
  rw [uint_shamtOperand_mod] at hsll hsrl hsra
  rw [exec_slli, exec_srli, exec_srai]
  exact ⟨aluInto_completes rd hsll, aluInto_completes_with rd hsrl, aluInto_completes rd hsra⟩

/-- Settles O23, from the ALU's comparisons; words are equal where their signed readings are. -/
theorem compareImmediateResult : Obligations.CompareImmediateResult := by
  intro s rd rs1 imm hlow hhigh
  obtain ⟨hslt, hseq, hsne, hsge, -⟩ :=
    aluComparisonsGiveOneOrZero s.params.divZeroPolicy (s.readReg rs1) (immediateOperand imm)
  simp only [ne_eq, ← BitVec.toInt_inj, sint_immediateOperand hlow hhigh] at hslt hseq hsne hsge
  rw [exec_slti, exec_seqi, exec_snei, exec_sgei]
  exact ⟨aluInto_completes rd hslt, aluInto_completes rd hseq, aluInto_completes rd hsne, aluInto_completes rd hsge⟩

/-- Settles O24: the divisor's signed reading is the immediate, so it is not 0. -/
theorem divideImmediateResult : Obligations.DivideImmediateResult := by
  intro s rd rs1 imm hlow hhigh hne
  have hsint := sint_immediateOperand hlow hhigh
  have hdivisor : immediateOperand imm ≠ 0 := fun h => hne (by rw [← hsint, h]; rfl)
  have hresult := aluInto_division_completes s rd (s.readReg rs1) hdivisor
  rw [hsint] at hresult
  rw [exec_divi, exec_remi]
  exact hresult

theorem upperImmediate_eq_wrap (u20 : Nat) : upperImmediate u20 = wrap ((u20 : Int) * 2 ^ 12) := by
  rw [upperImmediate, BitVec.shiftLeft_eq_mul_twoPow, wrap, BitVec.ofInt_mul, BitVec.ofInt_natCast]
  rfl

/-- The upper 20 bits hold an immediate in range, and the low 12 bits are 0. -/
theorem field_upperImmediate {u20 : Nat} (h : u20 ≤ 1048575) :
    field (upperImmediate u20) 12 20 = u20 ∧ field (upperImmediate u20) 0 12 = 0 := by
  rw [upperImmediate, field, field, BitVec.toNat_shiftLeft, BitVec.toNat_ofNat, Nat.shiftLeft_eq]
  omega

/-- Settles O25. -/
theorem loadUpperImmediateResult : Obligations.LoadUpperImmediateResult := by
  intro s rd u20
  have hframe := onlyWritesReg_advance_writeReg s rd (upperImmediate u20)
  refine ⟨_, exec_lui rd u20 s, upperImmediate_eq_wrap u20 ▸ hframe, fun hrange hrd => ?_⟩
  obtain ⟨hwrites, -⟩ := hframe
  rw [hwrites rd, if_pos ⟨rfl, hrd⟩]
  exact field_upperImmediate hrange

end Sys2Proof.Machine

/-! ### 41_load_store.md R150-R152: the effective address, the load and the store -/

namespace Sys2Proof.Machine

theorem add_wrap (a : Word) (n : Int) : a + wrap n = wrap (sint a + n) := by
  simp only [wrap, BitVec.ofInt_add, BitVec.ofInt_toInt]

/-- Settles O26; a base of x0 reads 0. -/
theorem effectiveAddressIsBasePlusOffset : Obligations.EffectiveAddressIsBasePlusOffset := by
  intro s rs1 imm
  have hzero : effectiveAddress s 0 imm = wrap imm := by rw [effectiveAddress, readReg_zero, zero_add]
  exact ⟨add_wrap (s.readReg rs1) imm, hzero⟩

/-- Taking a trap is the whole effect of an instruction that traps. -/
theorem trappedFrom_takeTrap (s : State) (c : TrapCause) (v : Word) : TrappedFrom s (s.takeTrap ⟨c, v⟩) c v :=
  ⟨rfl, rfl, rfl, rfl, rfl, rfl, rfl, rfl, rfl⟩

/-- Settles O27, by what a load does on either side of MEM_WORDS. -/
theorem loadWordResult : Obligations.LoadWordResult := by
  intro s rd rs1 imm
  rw [exec_lw]
  rcases execLw_cases rd rs1 imm s with ⟨hin, hexec⟩ | ⟨hout, hexec⟩
  · rw [if_pos hin]
    exact ⟨_, hexec, onlyWritesReg_advance_writeReg s rd _⟩
  · rw [if_neg (Nat.not_lt.mpr hout)]
    exact ⟨_, hexec, trappedFrom_takeTrap s .loadOutOfRange _⟩

/-- Settles O28, by what a store does on either side of MEM_WORDS; the canonical form makes the cell read back what was
written. -/
theorem storeWordResult : Obligations.StoreWordResult := by
  intro s rs2 rs1 imm hwf
  rw [exec_sw]
  rcases execSw_cases rs2 rs1 imm s with ⟨hin, hexec⟩ | ⟨hout, hexec⟩
  · rw [if_pos hin]
    exact ⟨_, hexec, rfl, readReg_withMem s.advance _, ⟨rfl, rfl⟩, ⟨rfl, rfl, rfl, rfl⟩, read_write_self hwf _ _,
      fun _ hother => read_write_ne s.mem _ hother⟩
  · rw [if_neg (Nat.not_lt.mpr hout)]
    exact ⟨_, hexec, trappedFrom_takeTrap s .storeOutOfRange _⟩

end Sys2Proof.Machine

/-! ### 42_control_transfer.md R165-R171: branches and jumps -/

namespace Sys2Proof.Machine

theorem branchTaken_beq_iff (a b : Word) : branchTaken .beq a b = true ↔ sint a = sint b := by
  simp only [branchTaken, equalTo, beq_iff_eq, BitVec.toInt_inj]

theorem branchTaken_bne_iff (a b : Word) : branchTaken .bne a b = true ↔ sint a ≠ sint b := by
  simp only [branchTaken, equalTo, Bool.not_eq_true', beq_eq_false_iff_ne, ne_eq, BitVec.toInt_inj]

theorem branchTaken_blt_iff (a b : Word) : branchTaken .blt a b = true ↔ sint a < sint b :=
  BitVec.slt_iff_toInt_lt

theorem branchTaken_bge_iff (a b : Word) : branchTaken .bge a b = true ↔ sint a ≥ sint b := by
  simp only [branchTaken, lessThan, Bool.not_eq_true', ← Bool.not_eq_true, BitVec.slt_iff_toInt_lt, Int.not_lt,
    ge_iff_le]

/-- R165's target in integer arithmetic, modulo 2^32. -/
theorem relativeTarget_eq_wrap (s : State) (off : Int) : relativeTarget s off = wrap (uint s.pc + 1 + off) := by
  simp only [relativeTarget, nextSlot, wrap, BitVec.ofInt_add, BitVec.ofInt_natCast, BitVec.ofNat_toNat,
    BitVec.setWidth_eq]
  rfl

theorem onlySetsPc_advance_setPc (s : State) (target : Word) : OnlySetsPc s (s.advance.setPc target) target :=
  ⟨rfl, fun _ => rfl, fun _ => rfl, ⟨rfl, rfl⟩, rfl, rfl, rfl, rfl⟩

/-- A branch whose condition is `P` completes, at its target if `P` holds and one slot on otherwise. -/
theorem branch_completes {op : BranchOp} {rs1 rs2 : Reg} {s : State} {P : Prop} [Decidable P] (off : Int)
    (hcond : branchTaken op (s.readReg rs1) (s.readReg rs2) = true ↔ P) :
    ∃ t, branch op rs1 rs2 off s = .next t ∧
      OnlySetsPc s t (if P then wrap (uint s.pc + 1 + off) else s.pc + 1) := by
  rcases branch_cases op rs1 rs2 off s with ⟨htaken, hnext⟩ | ⟨hnot, hnext⟩
  · rw [if_pos (hcond.mp htaken), ← relativeTarget_eq_wrap]
    exact ⟨_, hnext, onlySetsPc_advance_setPc s _⟩
  · rw [if_neg (mt hcond.mpr (by simp [hnot]))]
    exact ⟨_, hnext, onlySetsPc_advance_setPc s (s.pc + 1)⟩

/-- Settles O29: each branch takes its target exactly under its signed comparison. -/
theorem branchesSetPc : Obligations.BranchesSetPc := by
  intro s rs1 rs2 off
  rw [exec_beq, exec_bne, exec_blt, exec_bge]
  exact ⟨branch_completes off (branchTaken_beq_iff _ _), branch_completes off (branchTaken_bne_iff _ _),
    branch_completes off (branchTaken_blt_iff _ _), branch_completes off (branchTaken_bge_iff _ _)⟩

/-- A jump completes with the link in `rd` and the pc at its target. -/
theorem jumpAndLink_completes (s : State) (rd : Reg) (target : Word) :
    ∃ t, jumpAndLink rd target s = .next t ∧ WritesReg s t rd (s.pc + 1) ∧ t.pc = target ∧
      SameMemory s t ∧ SameStreams s t ∧ SameControl s t :=
  ⟨_, rfl, fun r => readReg_writeReg s.advance rd r (nextSlot s), rfl, fun _ => rfl, ⟨rfl, rfl⟩, rfl, rfl, rfl, rfl⟩

/-- Settles O30: both targets are formed from the registers before the link is written. -/
theorem jumpsLinkAndSetPc : Obligations.JumpsLinkAndSetPc := by
  intro s rd rs1 off
  rw [exec_jal, exec_jalr, relativeTarget_eq_wrap, absoluteTarget, add_wrap]
  exact ⟨jumpAndLink_completes s rd _, jumpAndLink_completes s rd _⟩

/-! ### 42_control_transfer.md R160-R163: the sequencer -/

theorem fetch_of_memWords_le {s : State} (hout : s.params.memWords ≤ uint s.pc) : fetch s = .outOfRange := by
  simp only [fetch, (memRead_eq_none s s.pc).mpr hout]

theorem memRead_of_lt {s : State} {a : Word} (hin : uint a < s.params.memWords) :
    s.memRead a = some (s.mem.read (uint a)) :=
  (memRead_eq_some s a _).mpr ⟨hin, rfl⟩

/-- Settles O34: the fetch below MEM_WORDS finds the decoded instruction, and the step executes what the fetch finds. -/
theorem stepRunsTheDecodedInstruction : Obligations.StepRunsTheDecodedInstruction := by
  intro s i hhalted hin hdecode
  exact step_of_instr hhalted (fetch_of_ok (memRead_of_lt hin) hdecode)

theorem hostStep_of_halted {s : State} (hhalted : s.halted = true) : hostStep s = (s, .halted) := by
  have hstep : step s = .next s := by simp [step, cycle, hhalted]
  rw [hostStep_of_step hstep, stepOutcome_of_halted hhalted]

theorem hostStep_of_outOfRange {s : State} (hhalted : s.halted = false) (hfetch : fetch s = .outOfRange) :
    hostStep s = (s.takeTrap ⟨.fetchOutOfRange, s.pc⟩, .trapped .fetchOutOfRange) := by
  rw [hostStep_of_step (step_of_outOfRange hhalted hfetch),
    stepOutcome_of_step hhalted (step_of_outOfRange (s := s.withoutTrap) hhalted hfetch)]
  rfl

theorem hostStep_of_invalid {s : State} {why : Invalid} (hhalted : s.halted = false) (hfetch : fetch s = .invalid why) :
    hostStep s = (s.stopAtInvalid, .halted) := by
  rw [hostStep_of_step (step_of_invalid hhalted hfetch),
    stepOutcome_of_step hhalted (step_of_invalid (s := s.withoutTrap) hhalted hfetch)]
  rfl

theorem hostStep_of_executes {s : State} {i : Instr} {a : Action} (hhalted : s.halted = false)
    (hfetch : fetch s = .instr i) (ha : Executes i s a) : hostStep s = (a.apply s, a.outcome) := by
  rw [hostStep_of_step ((step_of_instr hhalted hfetch).trans (ha.exec_eq s (.refl i s))),
    stepOutcome_of_executes hhalted hfetch ha]

/-- An instruction that does not trap ends the run exactly if it is `ebreak`. -/
theorem Action.MadeBy.outcome_eq {s : State} {i : Instr} {a : Action} (h : a.MadeBy s i) :
    (∃ e, a = .trap e) ∨ a.outcome = if i = .ebreak then .halted else .continued := by
  cases h with
  | trap e => exact .inl ⟨e, rfl⟩
  | halt | store | read | emit => exact .inr (by simp [Action.outcome])
  | write _ hdest | link _ hdest =>
    have hne : i ≠ .ebreak := by rintro rfl; simp [destReg, Instr.mnemonic, Mnemonic.format] at hdest
    exact .inr (if_neg hne).symm
  | branch _ hformat =>
    have hne : i ≠ .ebreak := by rintro rfl; simp [Instr.mnemonic, Mnemonic.format] at hformat
    exact .inr (if_neg hne).symm

/-- Settles O35: the step and its outcome in each case of the fetch, and for an instruction those of its action. -/
theorem hostStepFollowsTheSequencerRule : Obligations.HostStepFollowsTheSequencerRule := by
  intro s
  refine ⟨hostStep_of_halted, fun hh hout => hostStep_of_outOfRange hh (fetch_of_memWords_le hout),
    fun hh hin why hdecode => hostStep_of_invalid hh (fetch_of_error (memRead_of_lt hin) hdecode),
    fun hh hin i hdecode => ?_⟩
  obtain ⟨a, ha⟩ := exists_executes i s
  have hhost := hostStep_of_executes hh (fetch_of_ok (memRead_of_lt hin) hdecode) ha
  refine ⟨a.apply s, ha.exec_eq s (.refl i s), ?_⟩
  rcases ha.madeBy.outcome_eq with ⟨e, rfl⟩ | houtcome
  · exact .inl ⟨e.cause, e.value, rfl, hhost⟩
  · have htrap : (a.apply s).trap = s.trap := by
      rcases apply_trap a s with ⟨e, rfl⟩ | hkept
      · by_cases hi : i = .ebreak <;> simp [Action.outcome, hi] at houtcome
      · exact hkept
    refine .inr ⟨htrap, apply_started a s, ?_, houtcome ▸ hhost⟩
    rw [apply_halted, hh, houtcome]
    by_cases hi : i = .ebreak <;> simp [hi]

/-! ### 42_control_transfer.md R162: the increment of the pc -/

/-- The answer of an instruction from `s` that does not transfer control: the pc one slot on, or a trap. -/
def AdvancesOrTraps (s : State) (r : Result) : Prop :=
  (∃ t, r = .next t ∧ t.pc = s.pc + 1) ∨ ∃ e, r = .next (s.takeTrap e)

theorem aluInto_advancesOrTraps (op : AluOp) (rd : Reg) (a b : Word) (s : State) :
    AdvancesOrTraps s (aluInto op rd a b s) := by
  rcases aluInto_cases op rd a b s with ⟨v, -, hnext⟩ | ⟨-, hnext⟩
  · exact .inl ⟨_, hnext, rfl⟩
  · exact .inr ⟨_, hnext⟩

/-- Every instruction but the branches and jumps moves the pc one slot on, or traps. -/
theorem exec_advancesOrTraps {i : Instr} (hi : transfersControl i = false) (s : State) :
    AdvancesOrTraps s (exec i s) := by
  cases i with
  | add | sub | and | or | xor | sll | srl | sra | slt | seq | sne | sge | mul | div | rem =>
    simp only [exec_add, exec_sub, exec_and, exec_or, exec_xor, exec_sll, exec_srl, exec_sra, exec_slt, exec_seq,
      exec_sne, exec_sge, exec_mul, exec_div, exec_rem]
    exact aluInto_advancesOrTraps _ _ _ _ s
  | addi | subi | andi | ori | xori | slli | srli | srai | slti | seqi | snei | sgei | muli | divi | remi =>
    simp only [exec_addi, exec_subi, exec_andi, exec_ori, exec_xori, exec_slli, exec_srli, exec_srai, exec_slti,
      exec_seqi, exec_snei, exec_sgei, exec_muli, exec_divi, exec_remi]
    exact aluInto_advancesOrTraps _ _ _ _ s
  | lui | ebreak | ewrite => exact .inl ⟨_, rfl, rfl⟩
  | eread rd => exact .inl ⟨_, exec_eread rd s, inRead_pc s.advance⟩
  | lw rd rs1 imm =>
    rcases execLw_cases rd rs1 imm s with ⟨-, hnext⟩ | ⟨-, hnext⟩
    · exact .inl ⟨_, hnext, rfl⟩
    · exact .inr ⟨_, hnext⟩
  | sw rs2 rs1 imm =>
    rcases execSw_cases rs2 rs1 imm s with ⟨-, hnext⟩ | ⟨-, hnext⟩
    · exact .inl ⟨_, hnext, rfl⟩
    · exact .inr ⟨_, hnext⟩
  | beq | bne | blt | bge | jal | jalr => exact nomatch hi

/-- A machine that was not halted is halted after an action only by a halt or a trap. -/
theorem eq_halt_or_trap_of_apply_halted {s : State} {a : Action} (hhalted : s.halted = false)
    (h : (a.apply s).halted = true) : a = .halt ∨ ∃ e, a = .trap e := by
  cases a with
  | halt => exact .inl rfl
  | trap e => exact .inr ⟨e, rfl⟩
  | write | link | branch | store | read | emit => simp [apply_halted, hhalted, Action.outcome] at h

/-- Settles O38: the instruction moves the pc one slot on or traps, and what it does when it traps has the outcome
Trapped. -/
theorem pcAdvancesUnlessTransferred : Obligations.PcAdvancesUnlessTransferred := by
  intro s t i hhalted hfetch hstep hi
  obtain ⟨a, ha⟩ := exists_executes i s
  have hexec := ha.exec_eq s (.refl i s)
  obtain rfl : a.apply s = t := by simpa [step_of_instr hhalted hfetch, hexec] using hstep
  rcases exec_advancesOrTraps hi s with ⟨u, hnext, hpc⟩ | ⟨e, hnext⟩
  · obtain rfl : a.apply s = u := by simpa [hexec] using hnext
    exact .inl hpc
  · have heq : a.apply s = s.takeTrap e := by simpa [hexec] using hnext
    rcases eq_halt_or_trap_of_apply_halted hhalted (heq ▸ takeTrap_halted s e) with rfl | ⟨e', rfl⟩
    · exact .inl rfl
    · exact .inr ⟨rfl, e'.cause, stepOutcome_of_executes hhalted hfetch ha⟩

/-! ### 42_control_transfer.md R164: run -/

theorem exists_step_eq_next (s : State) : ∃ t, step s = .next t := by
  rcases step_cases s with ⟨-, e⟩ | ⟨-, -, e⟩ | ⟨-, -, e⟩ | ⟨-, i, -, e⟩
  · exact ⟨_, e⟩
  · exact ⟨_, e⟩
  · exact ⟨_, e⟩
  · obtain ⟨a, ha⟩ := exists_executes i s
    exact ⟨_, e.trans (ha.exec_eq s (.refl i s))⟩

/-- The host's step is one of the ways a step can end. -/
theorem stepped_hostStep (s : State) : Stepped s (hostStep s).1 (hostStep s).2 := by
  obtain ⟨t, h⟩ := exists_step_eq_next s
  have hfst : (hostStep s).1 = t := by rw [hostStep_of_step h]
  exact hfst ▸ stepped_of_step h

/-- A step leaves the machine halted unless its outcome is Continued. -/
theorem hostStep_halted {s : State} (h : (hostStep s).2 ≠ .continued) : (hostStep s).1.halted = true := by
  have hs := stepped_hostStep s
  generalize (hostStep s).1 = t, (hostStep s).2 = o at hs h
  cases hs with
  | stays hh => exact hh
  | outOfRange | invalid => rfl
  | executed hh hf hmade => simpa [apply_halted, hh] using h

@[simp] theorem run_zero (s : State) : run s 0 = (s, .limitReached) := rfl

theorem run_succ_of_continued {s : State} (h : (hostStep s).2 = .continued) (n : Nat) :
    run s (n + 1) = run (hostStep s).1 n := by
  have hs : hostStep s = ((hostStep s).1, .continued) := Prod.ext rfl h
  rw [run, hs]

theorem run_succ_of_halted {s : State} (h : (hostStep s).2 = .halted) (n : Nat) :
    run s (n + 1) = ((hostStep s).1, .halted) := by
  have hs : hostStep s = ((hostStep s).1, .halted) := Prod.ext rfl h
  rw [run, hs]

theorem run_succ_of_trapped {s : State} {c : TrapCause} (h : (hostStep s).2 = .trapped c) (n : Nat) :
    run s (n + 1) = ((hostStep s).1, .trapped c) := by
  have hs : hostStep s = ((hostStep s).1, .trapped c) := Prod.ext rfl h
  rw [run, hs]

/-- Running on after a limit that was reached is running with the larger limit; a run that ended stays as it is. -/
theorem run_add (s : State) (m n : Nat) :
    run s (m + n) = if (run s m).2 = .limitReached then run (run s m).1 n else run s m := by
  induction m generalizing s with
  | zero => simp
  | succ m ih =>
    rw [Nat.add_right_comm]
    cases h : (hostStep s).2 with
    | continued => rw [run_succ_of_continued h, run_succ_of_continued h, ih]
    | halted => simp [run_succ_of_halted h]
    | trapped c => simp [run_succ_of_trapped h]

/-- A run that ends before its limit ends in a step that leaves the machine halted. -/
theorem run_halted {s : State} {m : Nat} (h : (run s m).2 ≠ .limitReached) : (run s m).1.halted = true := by
  induction m generalizing s with
  | zero => exact absurd rfl h
  | succ m ih =>
    cases ho : (hostStep s).2 with
    | continued =>
      rw [run_succ_of_continued ho] at h ⊢
      exact ih h
    | halted =>
      rw [run_succ_of_halted ho]
      exact hostStep_halted (by simp [ho])
    | trapped c =>
      rw [run_succ_of_trapped ho]
      exact hostStep_halted (by simp [ho])

/-- Settles O58: the equations of `run` by the outcome of its first step, and the two inductions on the limit. -/
theorem runsCompose : Obligations.RunsCompose := by
  intro s m n
  exact ⟨run_zero s, fun h => run_succ_of_continued h n, fun h => run_succ_of_halted h n,
    fun c h => run_succ_of_trapped h n, run_add s m n, run_halted⟩

end Sys2Proof.Machine

/-! ### 43_environment.md R180-R184: the environment calls -/

namespace Sys2Proof.Machine

theorem inRead_of_lt {s : State} (hin : s.cursor < s.params.input.length) :
    s.inRead = (s.params.input[s.cursor], { s with cursor := s.cursor + 1 }) := by
  rcases inRead_cases s with ⟨v, hcode, hread⟩ | ⟨hend, -⟩
  · obtain ⟨_, rfl⟩ := List.getElem?_eq_some_iff.mp hcode
    exact hread
  · exact absurd hin (Nat.not_lt.mpr hend)

theorem inRead_of_le {s : State} (hend : s.params.input.length ≤ s.cursor) : s.inRead = (0, s) := by
  rcases inRead_cases s with ⟨v, hcode, -⟩ | ⟨-, hread⟩
  · obtain ⟨hin, -⟩ := List.getElem?_eq_some_iff.mp hcode
    exact absurd hin (Nat.not_lt.mpr hend)
  · exact hread

/-- Settles O32, by what `InRead()` answers inside the input and at its end; the register write leaves the cursor alone,
also for x0. -/
theorem ereadTakesNextCode : Obligations.EreadTakesNextCode := by
  intro s rd
  rw [exec_eread]
  split
  next hin =>
    rw [inRead_of_lt (s := s.advance) hin]
    exact ⟨_, rfl, fun r => readReg_writeReg { s.advance with cursor := s.cursor + 1 } rd r _, rfl, rfl, rfl,
      fun _ => rfl, rfl, rfl, rfl, rfl⟩
  next hend =>
    rw [inRead_of_le (s := s.advance) (Nat.not_lt.mp hend)]
    exact ⟨_, rfl, onlyWritesReg_advance_writeReg s rd 0⟩

/-- Settles O33: the output is the old one with the register's word as its last element. -/
theorem ewriteAppends : Obligations.EwriteAppends := by
  intro s rs1
  refine ⟨_, exec_ewrite rs1 s, ?_, ?_, ?_, rfl, rfl, readReg_outWrite s.advance _, fun _ => rfl, rfl, rfl, rfl, rfl⟩
  · exact List.length_append
  · exact List.getLast?_concat
  · exact List.dropLast_concat

/-- Settles O31; the step after it finds the machine halted. -/
theorem ebreakHalts : Obligations.EbreakHalts := by
  intro s
  exact ⟨_, exec_ebreak s, rfl, rfl, rfl, rfl, rfl, readReg_halt s.advance, fun _ => rfl, ⟨rfl, rfl⟩,
    hostStep_of_halted (halt_halted s.advance)⟩

end Sys2Proof.Machine

/-! ### 44_assembler.md R204: the assembler's offset -/

namespace Sys2Proof.Machine

/-- The offset that the assembler writes at a slot leads from the slot after it to the label's slot. -/
theorem uint_wrap_labelOffset {labelSlot : Nat} (hlt : labelSlot < 2 ^ 32) (slot : Nat) :
    uint (wrap ((slot : Int) + 1 + labelOffset labelSlot slot)) = labelSlot := by
  have hsum : (slot : Int) + 1 + labelOffset labelSlot slot = labelSlot := by
    unfold labelOffset
    omega
  rw [hsum, wrap, BitVec.ofInt_natCast, uint, BitVec.toNat_ofNat, Nat.mod_eq_of_lt hlt]

/-- Settles O60: both set the pc to the slot after them plus the offset, and a register equals itself. -/
theorem labelOffsetReachesTheLabel : Obligations.LabelOffsetReachesTheLabel := by
  intro s rd rs1 labelSlot hlt
  obtain ⟨⟨j, hjal, -, hjpc, -⟩, -⟩ := jumpsLinkAndSetPc s rd rs1 (labelOffset labelSlot (uint s.pc))
  obtain ⟨⟨b, hbeq, hbpc, -⟩, -⟩ := branchesSetPc s rs1 rs1 (labelOffset labelSlot (uint s.pc))
  rw [if_pos rfl] at hbpc
  exact ⟨⟨j, hjal, hjpc ▸ uint_wrap_labelOffset hlt _⟩, b, hbeq, hbpc ▸ uint_wrap_labelOffset hlt _⟩

end Sys2Proof.Machine

/-! ### 44_assembler.md R198: the parts of a constant -/

namespace Sys2Proof.Machine

/-- The low 12 bits of a word are the residue of its signed reading, as of its unsigned one. -/
theorem field_low_emod (v : Word) : (field v 0 12 : Int) = sint v % 2 ^ 12 := by
  have h := field_wrap (sint v) (width := 12) (by decide)
  rwa [wrap, BitVec.ofInt_toInt] at h

theorem lowPart_emod (v : Word) : lowPart v % 2 ^ 12 = sint v % 2 ^ 12 := by
  rw [lowPart, sext_emod, field_low_emod, Int.emod_emod]

theorem lowPart_range (v : Word) : -2048 ≤ lowPart v ∧ lowPart v ≤ 2047 :=
  ⟨sext_lower_bound _, sext_upper_bound (by decide) _⟩

theorem lowPart_eq_zero_iff (v : Word) : lowPart v = 0 ↔ field v 0 12 = 0 := by
  have hrange := lowPart_range v
  have hmod := lowPart_emod v
  have hfield := field_low_emod v
  omega

theorem highPart_le (v : Word) : highPart v ≤ 1048575 := by
  unfold highPart
  omega

/-- The high part, shifted up, and the low part make up the constant: what the low part leaves is a multiple of 2^12. -/
theorem wrap_highPart_add_lowPart (v : Word) : wrap ((highPart v : Int) * 2 ^ 12 + lowPart v) = v := by
  have hmod := lowPart_emod v
  have hsum : ((highPart v : Int) * 2 ^ 12 + lowPart v) % 2 ^ 32 = sint v % 2 ^ 32 := by
    unfold highPart
    omega
  calc wrap ((highPart v : Int) * 2 ^ 12 + lowPart v)
      = wrap (sint v) := BitVec.eq_of_toNat_eq (by
        rw [wrap, wrap, BitVec.toNat_ofInt, BitVec.toNat_ofInt, Nat.cast_pow, Nat.cast_ofNat, hsum])
    _ = v := BitVec.ofInt_toInt

/-! ### 44_assembler.md R198: the expansion of `li` encodes -/

/-- The instructions that load a constant: the cases of R198 with what holds in each. -/
theorem liExpansion_cases (rd : Reg) (v : Word) :
    (liExpansion rd v = [.addi rd 0 (sint v)] ∧ -2048 ≤ sint v ∧ sint v ≤ 2047) ∨
      (liExpansion rd v = [.lui rd (highPart v)] ∧ field v 0 12 = 0) ∨
      (liExpansion rd v = [.lui rd (highPart v), .addi rd rd (lowPart v)] ∧
        ¬ ((-2048 ≤ sint v ∧ sint v ≤ 2047) ∨ field v 0 12 = 0)) := by
  rw [liExpansion, ← lowPart_eq_zero_iff]
  by_cases hsmall : -2048 ≤ sint v ∧ sint v ≤ 2047
  · exact .inl ⟨if_pos hsmall, hsmall⟩
  · rw [if_neg hsmall]
    by_cases hlow : lowPart v = 0
    · exact .inr (.inl ⟨if_pos hlow, hlow⟩)
    · exact .inr (.inr ⟨if_neg hlow, not_or.mpr ⟨hsmall, hlow⟩⟩)

/-- Every instruction of the expansion has its operand in range. -/
theorem liExpansion_inRange {rd : Reg} {v : Word} {i : Instr} (h : i ∈ liExpansion rd v) :
    ImmediateInRange i.mnemonic i.operands.imm := by
  have hhigh : ImmediateInRange .lui (highPart v) := ⟨Int.natCast_nonneg _, by exact_mod_cast highPart_le v⟩
  rcases liExpansion_cases rd v with ⟨he, hsmall⟩ | ⟨he, -⟩ | ⟨he, -⟩
  · obtain rfl : i = .addi rd 0 (sint v) := by simpa [he] using h
    exact hsmall
  · obtain rfl : i = .lui rd (highPart v) := by simpa [he] using h
    exact hhigh
  · obtain rfl | rfl : i = .lui rd (highPart v) ∨ i = .addi rd rd (lowPart v) := by simpa [he] using h
    · exact hhigh
    · exact lowPart_range v

theorem encodeAll_cons_eq_ok_iff {map : OpcodeMap} {i : Instr} {rest : List Instr} {words : List Word} :
    encodeAll map (i :: rest) = .ok words ↔
      ∃ w ws, encodeWith map i = .ok w ∧ encodeAll map rest = .ok ws ∧ words = w :: ws := by
  rw [encodeAll]
  cases encodeWith map i with
  | error e => simp
  | ok w =>
    cases encodeAll map rest with
    | error e => simp
    | ok ws => simp [eq_comm]

/-- Instructions whose operands are in range all encode. -/
theorem exists_encodeAll_eq_ok (map : OpcodeMap) {is : List Instr}
    (h : ∀ i ∈ is, ImmediateInRange i.mnemonic i.operands.imm) : ∃ words, encodeAll map is = .ok words := by
  induction is with
  | nil => exact ⟨[], rfl⟩
  | cons i rest ih =>
    rw [List.forall_mem_cons] at h
    obtain ⟨hi, hrest⟩ := h
    obtain ⟨ws, hws⟩ := ih hrest
    have hw := (encodeWith_eq_ok_iff map i _).mpr ⟨hi, rfl⟩
    exact ⟨_, encodeAll_cons_eq_ok_iff.mpr ⟨_, ws, hw, hws, rfl⟩⟩

/-- One word for each instruction. -/
theorem length_of_encodeAll {map : OpcodeMap} {is : List Instr} {words : List Word} (h : encodeAll map is = .ok words) :
    words.length = is.length := by
  induction is generalizing words with
  | nil =>
    obtain rfl : [] = words := Except.ok.inj h
    rfl
  | cons i rest ih =>
    obtain ⟨w, ws, -, hrest, rfl⟩ := encodeAll_cons_eq_ok_iff.mp h
    rw [List.length_cons, List.length_cons, ih hrest]

theorem length_liExpansion (rd : Reg) (v : Word) :
    (liExpansion rd v).length = if (-2048 ≤ sint v ∧ sint v ≤ 2047) ∨ field v 0 12 = 0 then 1 else 2 := by
  rcases liExpansion_cases rd v with ⟨he, h⟩ | ⟨he, h⟩ | ⟨he, h⟩
  · rw [he, if_pos (.inl h)]
    rfl
  · rw [he, if_pos (.inr h)]
    rfl
  · rw [he, if_neg h]
    rfl

/-! ### Encoded instructions in memory, executed step by step -/

/-- The words stand in memory from the pc on, all below MEM_WORDS. -/
def WordsAtPc (s : State) (words : List Word) : Prop :=
  ∀ k, k < words.length → uint (s.pc + BitVec.ofNat 32 k) < s.params.memWords ∧
    some (s.mem.read (uint (s.pc + BitVec.ofNat 32 k))) = words[k]?

/-- The first word is the one that the pc names. -/
theorem WordsAtPc.head {s : State} {w : Word} {ws : List Word} (h : WordsAtPc s (w :: ws)) :
    uint s.pc < s.params.memWords ∧ s.mem.read (uint s.pc) = w := by
  simpa using h 0 (Nat.zero_lt_succ _)

/-- A step to the next slot that leaves memory alone leaves the other words at the pc. -/
theorem WordsAtPc.tail {s t : State} {w : Word} {ws : List Word} (h : WordsAtPc s (w :: ws)) (hpc : t.pc = s.pc + 1)
    (hmem : SameMemory s t) (hparams : t.params = s.params) : WordsAtPc t ws := by
  intro k hk
  have hslot : t.pc + BitVec.ofNat 32 k = s.pc + BitVec.ofNat 32 (k + 1) := by
    rw [hpc, Nat.add_comm k, BitVec.ofNat_add, BitVec.add_assoc]
    rfl
  rw [hslot, hparams, hmem]
  simpa using h (k + 1) (Nat.succ_lt_succ hk)

/-- The encoding of an instruction at the pc is what the step executes. -/
theorem step_of_encoded {s : State} {i : Instr} {w : Word} {ws : List Word} (hvalid : s.params.opcodeMap.Valid)
    (hhalted : s.halted = false) (hencode : encodeWith s.params.opcodeMap i = .ok w) (hwords : WordsAtPc s (w :: ws)) :
    step s = exec i s := by
  obtain ⟨hin, hread⟩ := hwords.head
  refine stepRunsTheDecodedInstruction s i hhalted hin ?_
  rw [hread]
  exact (everyValidMapDecodesExactlyWhatItEncodes _ hvalid i w).mpr hencode

/-- A run whose first step answers a next state goes on from that state. -/
theorem core_run_succ {M : Host.Core} {s t : M.State} (h : M.step s = .next t) (n : Nat) :
    M.run (n + 1) s = M.run n t := by
  rw [Host.Core.run, h]

theorem stepTimes_succ {s t : State} (h : step s = .next t) (n : Nat) : stepTimes (n + 1) s = stepTimes n t :=
  core_run_succ (M := Sys2Proof.core) h n

theorem stepTimes_zero (s : State) : stepTimes 0 s = .next s := rfl

/-- Execution of `n` slots whose one effect is the word `v` in `rd`. -/
def LoadsInto (n : Nat) (s t : State) (rd : Reg) (v : Word) : Prop :=
  t.readReg rd = v ∧ (∀ r, r ≠ rd → t.readReg r = s.readReg r) ∧ t.pc = s.pc + BitVec.ofNat 32 n ∧ SameMemory s t ∧
    SameStreams s t ∧ t.halted = s.halted ∧ t.params = s.params

/-- An instruction that only writes a register other than x0 loads it. -/
theorem OnlyWritesReg.loadsInto {s t : State} {rd : Reg} {v : Word} (h : OnlyWritesReg s t rd v) (hrd : rd ≠ 0) :
    LoadsInto 1 s t rd v := by
  obtain ⟨hregs, hpc, hmem, hstreams, -, hhalted, -, hparams⟩ := h
  refine ⟨?_, fun r hr => ?_, hpc, hmem, hstreams, hhalted, hparams⟩
  · rw [hregs rd, if_pos ⟨rfl, hrd⟩]
  · rw [hregs r, if_neg (fun hand => hr hand.1)]

/-- A second load of the same register keeps the frame of the first. -/
theorem LoadsInto.trans {m n : Nat} {s t u : State} {rd : Reg} {v v' : Word} (h : LoadsInto m s t rd v)
    (h' : LoadsInto n t u rd v') : LoadsInto (m + n) s u rd v' := by
  obtain ⟨-, hregs, hpc, hmem, ⟨hcursor, hout⟩, hhalted, hparams⟩ := h
  obtain ⟨hrd, hregs', hpc', hmem', ⟨hcursor', hout'⟩, hhalted', hparams'⟩ := h'
  refine ⟨hrd, fun r hr => (hregs' r hr).trans (hregs r hr), ?_, fun a => (hmem' a).trans (hmem a),
    ⟨hcursor'.trans hcursor, hout'.trans hout⟩, hhalted'.trans hhalted, hparams'.trans hparams⟩
  rw [hpc', hpc, BitVec.ofNat_add, BitVec.add_assoc]

/-- Instructions executed in order from `s` to `t`, each of which only writes a register. -/
inductive WritesInOrder : List Instr → State → State → Prop
  | nil (s : State) : WritesInOrder [] s s
  | cons {i : Instr} {rest : List Instr} {s t u : State} {rd : Reg} {v : Word} (hexec : exec i s = .next t)
      (hwrites : OnlyWritesReg s t rd v) (hrest : WritesInOrder rest t u) : WritesInOrder (i :: rest) s u

/-- The machine runs through the encodings of such instructions, one step for each word. -/
theorem WritesInOrder.stepTimes_eq {is : List Instr} {s u : State} (h : WritesInOrder is s u)
    (hvalid : s.params.opcodeMap.Valid) (hhalted : s.halted = false) {words : List Word}
    (hencode : encodeAll s.params.opcodeMap is = .ok words) (hwords : WordsAtPc s words) :
    stepTimes words.length s = .next u := by
  induction h generalizing words with
  | nil s =>
    obtain rfl : [] = words := Except.ok.inj hencode
    exact stepTimes_zero s
  | @cons i rest s t u rd v hexec hwrites _ ih =>
    obtain ⟨-, hpc, hmem, -, -, hkept, -, hparams⟩ := hwrites
    obtain ⟨w, ws, hfirst, hothers, rfl⟩ := encodeAll_cons_eq_ok_iff.mp hencode
    have hstep : step s = .next t := (step_of_encoded hvalid hhalted hfirst hwords).trans hexec
    rw [List.length_cons, stepTimes_succ hstep]
    exact ih (hparams ▸ hvalid) (hkept.trans hhalted) (hparams ▸ hothers) (hwords.tail hpc hmem hparams)

/-- One instruction that only writes a register other than x0. -/
theorem writesInOrder_singleton {i : Instr} {s : State} {rd : Reg} {v : Word} (hrd : rd ≠ 0)
    (h : ∃ t, exec i s = .next t ∧ OnlyWritesReg s t rd v) : ∃ t, WritesInOrder [i] s t ∧ LoadsInto 1 s t rd v := by
  obtain ⟨t, hexec, hwrites⟩ := h
  exact ⟨t, .cons hexec hwrites (.nil t), hwrites.loadsInto hrd⟩

/-- The expansion loads the constant: `addi` from x0 gives it as it is, `lui` its high part, and a second instruction
adds the low part. -/
theorem liExpansion_loads (s : State) {rd : Reg} (hrd : rd ≠ 0) (v : Word) :
    ∃ t, WritesInOrder (liExpansion rd v) s t ∧ LoadsInto (liExpansion rd v).length s t rd v := by
  have hparts := wrap_highPart_add_lowPart v
  obtain ⟨t, hlui, hhigh, -⟩ := loadUpperImmediateResult s rd (highPart v)
  rcases liExpansion_cases rd v with ⟨he, -⟩ | ⟨he, hlow⟩ | ⟨he, -⟩
  · obtain ⟨haddi, -⟩ := addSubMulImmediateResult s rd 0 (sint v)
    have hvalue : wrap (sint (s.readReg 0) + sint v) = v := by
      rw [← add_wrap, readReg_zero, zero_add, wrap, BitVec.ofInt_toInt]
    rw [hvalue] at haddi
    rw [he]
    exact writesInOrder_singleton hrd haddi
  · rw [(lowPart_eq_zero_iff v).mpr hlow, add_zero] at hparts
    rw [he]
    exact writesInOrder_singleton hrd ⟨t, hlui, hparts ▸ hhigh⟩
  · obtain ⟨⟨u, haddi, hsum⟩, -⟩ := addSubMulImmediateResult t rd rd (lowPart v)
    have hfirst := hhigh.loadsInto hrd
    have hread : t.readReg rd = wrap ((highPart v : Int) * 2 ^ 12) := hfirst.1
    have hvalue : wrap (sint (t.readReg rd) + lowPart v) = v := by
      rw [hread, ← add_wrap, ← BitVec.ofInt_add]
      exact hparts
    rw [he]
    exact ⟨u, .cons hlui hhigh (.cons haddi hsum (.nil u)), hfirst.trans (hvalue ▸ hsum.loadsInto hrd)⟩

/-- Settles O59: the machine steps through the encoded expansion, which loads the constant. -/
theorem liExpansionLoadsTheConstant : Obligations.LiExpansionLoadsTheConstant := by
  intro s rd v
  obtain ⟨words, hencode⟩ := exists_encodeAll_eq_ok s.params.opcodeMap fun _ => liExpansion_inRange (rd := rd) (v := v)
  have hlength := length_of_encodeAll hencode
  refine ⟨words, hencode, hlength.trans (length_liExpansion rd v), fun hvalid hhalted hrd hwords => ?_⟩
  obtain ⟨t, hrun, hloads⟩ := liExpansion_loads s hrd v
  rw [← hlength] at hloads
  obtain ⟨hvalue, hregs, hpc, hmem, hstreams, hkept, -⟩ := hloads
  exact ⟨t, hrun.stepTimes_eq hvalid hhalted hencode hwords, hvalue, hregs, hpc, hmem, hstreams, hkept.trans hhalted⟩

end Sys2Proof.Machine

/-! ### 44_assembler.md R194-R196, R205, R207: what pass 1 keeps -/

namespace Sys2Proof.Machine

/-- The line of an item's patch; the other items have no error left to make. -/
def Item.patchLine (i : Item) : Option Nat :=
  match i with
  | .words _ | .data _ _ => none
  | .patch p => some p.lineNumber

/-- Everything pass 1 can do with line `n`: nothing, bind a label, note one error, or emit an item, whose patch, if it is
one, belongs to the line. -/
inductive Pass1LineEffect (memWords : Nat) (p : Pass1) (n : Nat) : Pass1 → Prop
  | nothing : Pass1LineEffect memWords p n p
  | label (labels : List (Text × Nat)) : Pass1LineEffect memWords p n { p with labels := labels }
  | error {k : ErrorKind} (hkind : k ≠ .unknownLabel) : Pass1LineEffect memWords p n (noteError p n k)
  | item {i : Item} (hline : ∀ l ∈ i.patchLine, l = n) : Pass1LineEffect memWords p n (emitItem memWords p n i)

theorem pass1Line_effect (map : OpcodeMap) (memWords : Nat) (p : Pass1) (n : Nat) (line : Text) :
    Pass1LineEffect memWords p n (pass1Line map memWords p n line) := by
  unfold pass1Line
  cases parseLine (lineTokens line) with
  | none => exact .error nofun
  | some shape =>
    cases shape with
    | blank => exact .nothing
    | label name =>
      dsimp only
      split
      · exact .error nofun
      · exact .label _
    | data v count =>
      dsimp only
      split
      · exact .item nofun
      · exact .error nofun
    | op r =>
      dsimp only
      split
      · exact .item nofun
      · exact .error nofun
    | loadImm rd imm =>
      dsimp only
      split
      · split
        · exact .item nofun
        · exact .error nofun
      · exact .error nofun
    | branchTo | jumpTo | loadLabel => exact .item fun l hl => (Option.some.inj hl).symm

/-- Line numbers that rise strictly and are below `n`. -/
def RisingBelow (n : Nat) (lines : List Nat) : Prop := lines.Pairwise (· < ·) ∧ ∀ l ∈ lines, l < n

theorem RisingBelow.succ {n : Nat} {lines : List Nat} (h : RisingBelow n lines) : RisingBelow (n + 1) lines :=
  ⟨h.1, fun l hl => Nat.lt_succ_of_lt (h.2 l hl)⟩

theorem RisingBelow.concat {n : Nat} {lines : List Nat} (h : RisingBelow n lines) :
    RisingBelow (n + 1) (lines ++ [n]) := by
  obtain ⟨hrising, hbelow⟩ := h
  refine ⟨List.pairwise_append.mpr ⟨hrising, List.pairwise_singleton _ n, fun a ha b hb => ?_⟩, fun l hl => ?_⟩
  · exact List.mem_singleton.mp hb ▸ hbelow a ha
  · rcases List.mem_append.mp hl with hl | hl
    · exact Nat.lt_succ_of_lt (hbelow l hl)
    · exact List.mem_singleton.mp hl ▸ Nat.lt_succ_self n

/-- Errors such as pass 1 makes on the lines before `n`: at most one a line, and none of pass 2's unknown labels. -/
def Pass1Errors (n : Nat) (errors : List AssemblyError) : Prop :=
  RisingBelow n (errors.map AssemblyError.lineNumber) ∧ ∀ e ∈ errors, e.kind ≠ .unknownLabel

theorem Pass1Errors.succ {n : Nat} {errors : List AssemblyError} (h : Pass1Errors n errors) :
    Pass1Errors (n + 1) errors := ⟨h.1.succ, h.2⟩

theorem Pass1Errors.concat {n : Nat} {errors : List AssemblyError} (h : Pass1Errors n errors) {k : ErrorKind}
    (hkind : k ≠ .unknownLabel) : Pass1Errors (n + 1) (errors ++ [⟨n, k⟩]) := by
  obtain ⟨hrise, hkinds⟩ := h
  refine ⟨by simpa using hrise.concat, fun e he => ?_⟩
  rcases List.mem_append.mp he with he | he
  · exact hkinds e he
  · obtain rfl := List.mem_singleton.mp he
    exact hkind

/-- What pass 1 keeps, `n` being the number of the next line: the slots are those of the items, more of them than
MEM_WORDS are an error, and there is at most one error and one patch a line. -/
structure Pass1.Inv (memWords : Nat) (p : Pass1) (n : Nat) : Prop where
  slot_eq : p.slot = (p.items.map itemSlots).sum
  overflow_of_lt : memWords < p.slot → p.overflow = true
  errors_of_overflow : p.overflow = true → p.errors ≠ []
  errors : Pass1Errors n p.errors
  patches : RisingBelow n (p.items.filterMap Item.patchLine)

theorem Pass1.Inv.noteError {memWords n : Nat} {p : Pass1} {k : ErrorKind} (h : p.Inv memWords n)
    (hkind : k ≠ .unknownLabel) : (noteError p n k).Inv memWords (n + 1) :=
  ⟨h.slot_eq, h.overflow_of_lt, fun _ => List.append_ne_nil_of_right_ne_nil _ (List.cons_ne_nil _ _),
    h.errors.concat hkind, h.patches.succ⟩

@[simp] theorem emitItem_slot (memWords : Nat) (p : Pass1) (n : Nat) (i : Item) :
    (emitItem memWords p n i).slot = p.slot + itemSlots i := rfl

@[simp] theorem emitItem_items (memWords : Nat) (p : Pass1) (n : Nat) (i : Item) :
    (emitItem memWords p n i).items = p.items ++ [i] := rfl

theorem emitItem_overflow (memWords : Nat) (p : Pass1) (n : Nat) (i : Item) :
    (emitItem memWords p n i).overflow = true ↔ p.overflow = true ∨ memWords < p.slot + itemSlots i := by
  simp [emitItem]

/-- R207's error is added for the first item that passes the end of memory, and for no other. -/
theorem emitItem_errors_cases (memWords : Nat) (p : Pass1) (n : Nat) (i : Item) :
    (emitItem memWords p n i).errors = p.errors ++ [⟨n, .programTooLong⟩] ∨
      (emitItem memWords p n i).errors = p.errors ∧ (emitItem memWords p n i).overflow = p.overflow := by
  cases hbefore : p.overflow with
  | true => exact .inr (by simp [emitItem, hbefore])
  | false =>
    by_cases hpast : memWords < p.slot + itemSlots i
    · exact .inl (by simp [emitItem, hbefore, hpast])
    · exact .inr (by simp [emitItem, hbefore, hpast])

/-- An item keeps the rise of the patches' lines: it is on line `n`, or it is no patch. -/
theorem patches_concat {items : List Item} {n : Nat} {i : Item} (hline : ∀ l ∈ i.patchLine, l = n)
    (hrise : RisingBelow n (items.filterMap Item.patchLine)) :
    RisingBelow (n + 1) ((items ++ [i]).filterMap Item.patchLine) := by
  rw [List.filterMap_append]
  cases hi : i.patchLine with
  | none => simpa [hi] using hrise.succ
  | some l =>
    obtain rfl : l = n := hline l hi
    simpa [hi] using hrise.concat

theorem Pass1.Inv.emitItem {memWords n : Nat} {p : Pass1} {i : Item} (h : p.Inv memWords n)
    (hline : ∀ l ∈ i.patchLine, l = n) : (emitItem memWords p n i).Inv memWords (n + 1) := by
  have hslot : p.slot + itemSlots i = ((p.items ++ [i]).map itemSlots).sum := by simp [h.slot_eq]
  have hoverflow (hlt : memWords < p.slot + itemSlots i) := (emitItem_overflow memWords p n i).mpr (.inr hlt)
  have hpatches := patches_concat hline h.patches
  rcases emitItem_errors_cases memWords p n i with herrors | ⟨herrors, hsame⟩
  · exact ⟨hslot, hoverflow, fun _ => by simp [herrors], herrors ▸ h.errors.concat nofun, hpatches⟩
  · exact ⟨hslot, hoverflow, fun ho => herrors ▸ h.errors_of_overflow (hsame ▸ ho), herrors ▸ h.errors.succ, hpatches⟩

theorem Pass1.Inv.pass1Line {memWords n : Nat} {p : Pass1} (h : p.Inv memWords n) (map : OpcodeMap) (line : Text) :
    (pass1Line map memWords p n line).Inv memWords (n + 1) := by
  have heffect := pass1Line_effect map memWords p n line
  generalize Machine.pass1Line map memWords p n line = q at heffect
  cases heffect with
  | nothing | label => exact { h with errors := h.errors.succ, patches := h.patches.succ }
  | error hkind => exact h.noteError hkind
  | item hline => exact h.emitItem hline

theorem Pass1.Inv.pass1From {memWords : Nat} (map : OpcodeMap) (lines : List Text) {n : Nat} {p : Pass1}
    (h : p.Inv memWords n) : (pass1From map memWords p n lines).Inv memWords (n + lines.length) := by
  induction lines generalizing p n with
  | nil => exact h
  | cons line rest ih =>
    rw [List.length_cons, Nat.add_comm rest.length, ← Nat.add_assoc]
    exact ih (h.pass1Line map line)

theorem pass1_start_inv (memWords : Nat) : (⟨0, [], [], [], false⟩ : Pass1).Inv memWords 0 where
  slot_eq := rfl
  overflow_of_lt := nofun
  errors_of_overflow := nofun
  errors := ⟨⟨.nil, nofun⟩, nofun⟩
  patches := ⟨.nil, nofun⟩

/-! ### 44_assembler.md R202-R205: pass 2 -/

/-- The instructions of a patch are as many as the slots that pass 1 gave it. -/
theorem length_patchInstrs (p : Patch) (labelSlot : Nat) : (patchInstrs p labelSlot).length = itemSlots (.patch p) := by
  obtain ⟨_, _, kind, _⟩ := p
  cases kind <;> rfl

/-- What pass 2 makes of an item: words for all its slots, or the error of its patch. -/
theorem itemWords_cases (map : OpcodeMap) (labels : List (Text × Nat)) (i : Item) :
    (∃ ws, itemWords map labels i = .ok ws ∧ ws.length = itemSlots i) ∨
      ∃ e, itemWords map labels i = .error e ∧ i.patchLine = some e.lineNumber ∧
        (e.kind = .unknownLabel ∨ ∃ f, e.kind = .encodingImpossible (some f)) := by
  cases i with
  | words ws => exact .inl ⟨ws, rfl, rfl⟩
  | data v n => exact .inl ⟨_, rfl, List.length_replicate⟩
  | patch p =>
    cases hlabel : lookupLabel labels p.label with
    | none => exact .inr ⟨⟨p.lineNumber, .unknownLabel⟩, by simp only [itemWords, hlabel], rfl, .inl rfl⟩
    | some t =>
      cases hencode : encodeAll map (patchInstrs p t) with
      | ok ws =>
        have hlength := (length_of_encodeAll hencode).trans (length_patchInstrs p t)
        exact .inl ⟨ws, by simp only [itemWords, hlabel, hencode], hlength⟩
      | error e =>
        exact .inr ⟨⟨p.lineNumber, .encodingImpossible (some e.field)⟩, by simp only [itemWords, hlabel, hencode], rfl,
          .inr ⟨e.field, rfl⟩⟩

theorem pass2_cons_of_ok {map : OpcodeMap} {labels : List (Text × Nat)} {i : Item} {ws : List Word}
    (h : itemWords map labels i = .ok ws) (rest : List Item) :
    pass2 map labels (i :: rest) = (ws ++ (pass2 map labels rest).1, (pass2 map labels rest).2) := by
  rw [pass2, h]

theorem pass2_cons_of_error {map : OpcodeMap} {labels : List (Text × Nat)} {i : Item} {e : AssemblyError}
    (h : itemWords map labels i = .error e) (rest : List Item) :
    pass2 map labels (i :: rest) = ((pass2 map labels rest).1, e :: (pass2 map labels rest).2) := by
  rw [pass2, h]

/-- Pass 2 without an error fills every slot. -/
theorem length_pass2 {map : OpcodeMap} {labels : List (Text × Nat)} {items : List Item}
    (h : (pass2 map labels items).2 = []) : (pass2 map labels items).1.length = (items.map itemSlots).sum := by
  induction items with
  | nil => rfl
  | cons i rest ih =>
    rcases itemWords_cases map labels i with ⟨ws, hok, hlength⟩ | ⟨e, herror, -, -⟩
    · rw [pass2_cons_of_ok hok] at h ⊢
      rw [List.length_append, hlength, ih h, List.map_cons, List.sum_cons]
    · rw [pass2_cons_of_error herror] at h
      exact nomatch h

/-- Pass 2's errors are errors of patches, in their order, each at its patch's line. -/
theorem pass2_errors_sublist (map : OpcodeMap) (labels : List (Text × Nat)) (items : List Item) :
    ((pass2 map labels items).2.map AssemblyError.lineNumber).Sublist (items.filterMap Item.patchLine) := by
  induction items with
  | nil => exact .slnil
  | cons i rest ih =>
    rcases itemWords_cases map labels i with ⟨ws, hok, -⟩ | ⟨e, herror, hline, -⟩
    · rw [pass2_cons_of_ok hok, List.filterMap_cons]
      cases i.patchLine with
      | none => exact ih
      | some l => exact ih.cons l
    · rw [pass2_cons_of_error herror, List.filterMap_cons, hline]
      exact ih.cons_cons e.lineNumber

theorem pass2_errors_kind {map : OpcodeMap} {labels : List (Text × Nat)} {items : List Item} {e : AssemblyError}
    (h : e ∈ (pass2 map labels items).2) : e.kind = .unknownLabel ∨ ∃ f, e.kind = .encodingImpossible (some f) := by
  induction items with
  | nil => exact nomatch h
  | cons i rest ih =>
    rcases itemWords_cases map labels i with ⟨ws, hok, -⟩ | ⟨e', herror, -, hkind⟩
    · rw [pass2_cons_of_ok hok] at h
      exact ih h
    · rw [pass2_cons_of_error herror] at h
      rcases List.mem_cons.mp h with rfl | h
      · exact hkind
      · exact ih h

/-! ### 44_assembler.md R205-R207: the assembler -/

/-- What the assembler answers: the image if neither pass made an error, else the errors of both, pass 1's first. -/
theorem assemble_cases (map : OpcodeMap) (memWords : Nat) (source : String) :
    ∃ (n : Nat) (p : Pass1), p.Inv memWords n ∧
      ((p.errors = [] ∧ (pass2 map p.labels p.items).2 = [] ∧
          assemble map memWords source = .ok ⟨(pass2 map p.labels p.items).1, p.labels⟩) ∨
        (p.errors ++ (pass2 map p.labels p.items).2 ≠ [] ∧
          assemble map memWords source = .error (p.errors ++ (pass2 map p.labels p.items).2))) := by
  refine ⟨_, _, (pass1_start_inv memWords).pass1From map (splitLines [] source.toList), ?_⟩
  unfold assemble
  dsimp only
  generalize pass1From map memWords _ 0 _ = p
  split
  next hnone =>
    obtain ⟨hfirst, hsecond⟩ := List.append_eq_nil_iff.mp hnone
    exact .inl ⟨hfirst, hsecond, rfl⟩
  next e es hsome =>
    rw [hsome]
    exact .inr ⟨List.cons_ne_nil e es, rfl⟩

/-- An image without errors has a word for each slot of pass 1, and past the end of memory there is an error. -/
theorem Pass1.Inv.length_pass2_le {memWords n : Nat} {p : Pass1} (h : p.Inv memWords n) {map : OpcodeMap}
    (hfirst : p.errors = []) (hsecond : (pass2 map p.labels p.items).2 = []) :
    (pass2 map p.labels p.items).1.length ≤ memWords := by
  rw [length_pass2 hsecond, ← h.slot_eq]
  by_contra hpast
  exact h.errors_of_overflow (h.overflow_of_lt (Nat.lt_of_not_le hpast)) hfirst

/-- Settles O55: pass 1 keeps its invariant line by line, and pass 2's errors are on the lines of its patches. -/
theorem assembledImageFitsMemory : Obligations.AssembledImageFitsMemory := by
  intro map memWords source
  obtain ⟨n, p, hinv, ⟨hfirst, hsecond, hok⟩ | ⟨hne, herror⟩⟩ := assemble_cases map memWords source
  · rw [hok]
    refine ⟨fun image himage => ?_, nofun⟩
    obtain rfl := Except.ok.inj himage
    exact hinv.length_pass2_le hfirst hsecond
  · rw [herror]
    refine ⟨nofun, fun errors herrors => ?_⟩
    obtain rfl := Except.error.inj herrors
    obtain ⟨⟨hrise₁, -⟩, hkinds⟩ := hinv.errors
    have hrise₂ := hinv.patches.1.sublist (pass2_errors_sublist map p.labels p.items)
    exact ⟨hne, _, _, rfl, List.pairwise_map.mp hrise₁, List.pairwise_map.mp hrise₂, hkinds, fun _ => pass2_errors_kind⟩

end Sys2Proof.Machine

/-! ### 60_exceptions.md R220, R224, R236: a step answers a next state, and a trap is precise -/

namespace Sys2Proof.Machine

/-- Settles O36. -/
theorem everyStepAnswersNext : Obligations.EveryStepAnswersNext := exists_step_eq_next

theorem step_eq_next_hostStep (s : State) : step s = .next (hostStep s).1 := by
  obtain ⟨t, h⟩ := exists_step_eq_next s
  rw [hostStep_of_step h, h]

theorem takeTrap_inj {s : State} {e e' : Trap} : s.takeTrap e = s.takeTrap e' ↔ e = e' :=
  ⟨fun h => Option.some.inj (congrArg (fun t : State => t.trap) h), congrArg s.takeTrap⟩

/-- A step whose outcome is a trap takes a trap of that cause. -/
theorem exists_hostStep_eq_takeTrap {s : State} {c : TrapCause} (h : (hostStep s).2 = .trapped c) :
    ∃ v, hostStep s = (s.takeTrap ⟨c, v⟩, .trapped c) := by
  have hstate : ∃ v, (hostStep s).1 = s.takeTrap ⟨c, v⟩ := by
    have hs := stepped_hostStep s
    rw [h] at hs
    generalize (hostStep s).1 = t, ho : StepOutcome.trapped c = o at hs
    cases hs with
    | stays | invalid => exact nomatch ho
    | outOfRange =>
      obtain rfl : c = .fetchOutOfRange := StepOutcome.trapped.inj ho
      exact ⟨s.pc, rfl⟩
    | @executed i a =>
      cases a with
      | trap e =>
        obtain rfl : c = e.cause := StepOutcome.trapped.inj ho
        exact ⟨e.value, rfl⟩
      | write | link | branch | store | halt | read | emit => exact nomatch ho
  obtain ⟨v, hv⟩ := hstate
  exact ⟨v, Prod.ext hv h⟩

/-- Settles O39: all that such a step does is to take the trap. -/
theorem trapIsPrecise : Obligations.TrapIsPrecise := by
  intro s c h
  obtain ⟨v, hhost⟩ := exists_hostStep_eq_takeTrap h
  rw [hhost]
  exact ⟨v, trappedFrom_takeTrap s c v⟩

/-- The outcome and the record tell the whole step. -/
theorem trapped_iff_hostStep_eq {s : State} {c : TrapCause} {v : Word} :
    ((hostStep s).2 = .trapped c ∧ (hostStep s).1.trap = some ⟨c, v⟩) ↔
      hostStep s = (s.takeTrap ⟨c, v⟩, .trapped c) := by
  constructor
  · rintro ⟨houtcome, hrecord⟩
    obtain ⟨v', hhost⟩ := exists_hostStep_eq_takeTrap houtcome
    rw [hhost, takeTrap_trap, Option.some.injEq] at hrecord
    rw [hhost, hrecord]
  · intro hhost
    rw [hhost]
    exact ⟨rfl, rfl⟩

/-! ### 60_exceptions.md R222: the pc outside memory -/

/-- A slot whose successor is outside memory is the last one: the increment cannot wrap to a larger slot. -/
theorem uint_eq_last_of_successor_outside {p : Word} {n : Nat} (hin : uint p < n) (hout : n ≤ uint (p + 1)) :
    uint p = n - 1 := by
  have hle : uint (p + 1) ≤ uint p + 1 := by
    rw [uint, BitVec.toNat_add]
    exact Nat.mod_le _ _
  omega

/-- Settles O37: of the ways a step can end only an executed instruction moves the pc, and one that does not transfer
control moves it one slot on. -/
theorem fetchOutOfRangeTraps : Obligations.FetchOutOfRangeTraps := by
  refine ⟨fun s hhalted hout => ?_, fun s t hin hstep hout => ?_⟩
  · rw [hostStep_of_outOfRange hhalted (fetch_of_memWords_le hout)]
    exact ⟨rfl, trappedFrom_takeTrap s .fetchOutOfRange s.pc⟩
  · obtain ⟨o, hs⟩ := exists_stepped hstep
    cases hs with
    | stays | outOfRange | invalid => exact absurd hin (Nat.not_lt.mpr hout)
    | @executed i a hhalted hfetch hmade =>
      rw [apply_params] at hout
      refine ⟨i, hfetch, ?_⟩
      by_cases hnext : (a.apply s).pc = s.pc + 1
      · exact .inr ⟨hnext, uint_eq_last_of_successor_outside hin (hnext ▸ hout)⟩
      · refine .inl ⟨?_, hnext⟩
        by_contra hi
        rcases pcAdvancesUnlessTransferred s _ i hhalted hfetch hstep (Bool.eq_false_iff.mpr hi) with h | ⟨hpc, -⟩
        · exact hnext h
        · rw [hpc] at hout
          exact absurd hin (Nat.not_lt.mpr hout)

/-! ### 60_exceptions.md R223: which instructions take which trap -/

/-- An instruction that moves the pc one slot on did not trap. -/
theorem ne_takeTrap_of_pc {r : Result} {s t : State} (hnext : r = .next t) (hpc : t.pc = s.pc + 1) (e : Trap) :
    r ≠ .next (s.takeTrap e) := by
  rintro rfl
  obtain rfl : s.takeTrap e = t := by simpa using hnext
  simp at hpc

/-- An instruction that does not halt the machine did not trap. -/
theorem ne_takeTrap_of_halted {r : Result} {s t : State} (hnext : r = .next t) (hhalted : t.halted = false) (e : Trap) :
    r ≠ .next (s.takeTrap e) := by
  rintro rfl
  obtain rfl : s.takeTrap e = t := by simpa using hnext
  simp at hhalted

theorem next_takeTrap_inj {s : State} {e e' : Trap} :
    (.next (s.takeTrap e) : Result) = .next (s.takeTrap e') ↔ e = e' := by
  rw [Host.Outcome.next.injEq, takeTrap_inj]

/-- An ALU instruction traps exactly for a zero divisor of DIV or REM under the policy `trap`, with the pc. -/
theorem aluInto_eq_takeTrap_iff {op : AluOp} {rd : Reg} {a b : Word} {s : State} {e : Trap} :
    aluInto op rd a b s = .next (s.takeTrap e) ↔
      ((op = .div ∨ op = .rem) ∧ b = 0 ∧ s.params.divZeroPolicy = .trap) ∧ e = ⟨.divideByZero, s.pc⟩ := by
  rw [← alu_fault_iff _ op a b]
  rcases aluInto_cases op rd a b s with ⟨v, halu, hnext⟩ | ⟨halu, hnext⟩
  · simp only [ne_takeTrap_of_pc hnext rfl e, halu, reduceCtorEq, false_and]
  · rw [hnext, halu, next_takeTrap_inj, eq_comm, and_iff_right rfl]

/-- A load traps exactly for an address outside memory, with the address. -/
theorem execLw_eq_takeTrap_iff {rd rs1 : Reg} {imm : Int} {s : State} {e : Trap} :
    execLw rd rs1 imm s = .next (s.takeTrap e) ↔
      s.params.memWords ≤ uint (effectiveAddress s rs1 imm) ∧ e = ⟨.loadOutOfRange, effectiveAddress s rs1 imm⟩ := by
  rcases execLw_cases rd rs1 imm s with ⟨hin, hnext⟩ | ⟨hout, hnext⟩
  · simp only [ne_takeTrap_of_pc hnext rfl e, Nat.not_le.mpr hin, false_and]
  · rw [hnext, next_takeTrap_inj, eq_comm, and_iff_right hout]

/-- A store traps exactly for an address outside memory, with the address. -/
theorem execSw_eq_takeTrap_iff {rs2 rs1 : Reg} {imm : Int} {s : State} {e : Trap} :
    execSw rs2 rs1 imm s = .next (s.takeTrap e) ↔
      s.params.memWords ≤ uint (effectiveAddress s rs1 imm) ∧ e = ⟨.storeOutOfRange, effectiveAddress s rs1 imm⟩ := by
  rcases execSw_cases rs2 rs1 imm s with ⟨hin, hnext⟩ | ⟨hout, hnext⟩
  · simp only [ne_takeTrap_of_pc hnext rfl e, Nat.not_le.mpr hin, false_and]
  · rw [hnext, next_takeTrap_inj, eq_comm, and_iff_right hout]

theorem branch_ne_takeTrap {s : State} (hhalted : s.halted = false) (op : BranchOp) (rs1 rs2 : Reg) (off : Int)
    (e : Trap) : branch op rs1 rs2 off s ≠ .next (s.takeTrap e) := by
  rcases branch_cases op rs1 rs2 off s with ⟨-, hnext⟩ | ⟨-, hnext⟩
  · exact ne_takeTrap_of_halted hnext hhalted e
  · exact ne_takeTrap_of_halted hnext hhalted e

/-- The decoder's immediates lie in the range of their format, under every OPCODE_MAP. -/
theorem immediateInRange_of_decodeWith {map : OpcodeMap} {w : Word} {i : Instr} (h : decodeWith map w = .ok i) :
    ImmediateInRange i.mnemonic i.operands.imm := by
  obtain ⟨m, -, rfl⟩ := (decodeWith_eq_ok_iff map w i).mp h
  simp only [mnemonic_build, operands_build, restrict_unpack]
  exact immediateInRange_unpack m w

theorem immediateInRange_of_fetch {s : State} {i : Instr} (h : fetch s = .instr i) :
    ImmediateInRange i.mnemonic i.operands.imm := by
  rcases fetch_cases s with ⟨-, hf⟩ | ⟨-, why, -, hf⟩ | ⟨-, j, hdecode, hf⟩ <;> rw [hf] at h
  · exact nomatch h
  · exact nomatch h
  · obtain rfl : j = i := Fetch.instr.inj h
    exact immediateInRange_of_decodeWith hdecode

/-- In the range of its field only the immediate 0 is the divisor 0. -/
theorem eq_zero_of_immediateOperand_eq_zero {imm : Int} (hrange : -2048 ≤ imm ∧ imm ≤ 2047)
    (h : immediateOperand imm = 0) : imm = 0 := by
  rw [← sint_immediateOperand hrange.1 hrange.2, h]
  rfl

/-! ### 60_exceptions.md R223: the cause table -/

/-- A fetched instruction that traps has a reason in the table. -/
theorem trapReason_of_exec {s : State} {i : Instr} {e : Trap} (hhalted : s.halted = false)
    (hfetch : fetch s = .instr i) (h : exec i s = .next (s.takeTrap e)) : TrapReason s e.cause e.value := by
  cases i with
  | lw rd rs1 imm =>
    obtain ⟨hout, rfl⟩ := execLw_eq_takeTrap_iff.mp h
    exact ⟨rd, rs1, imm, hfetch, rfl, hout⟩
  | sw rs2 rs1 imm =>
    obtain ⟨hout, rfl⟩ := execSw_eq_takeTrap_iff.mp h
    exact ⟨rs2, rs1, imm, hfetch, rfl, hout⟩
  | div rd rs1 rs2 =>
    obtain ⟨⟨-, hzero, hpolicy⟩, rfl⟩ := aluInto_eq_takeTrap_iff.mp h
    exact ⟨hpolicy, rfl, .inl ⟨rd, rs1, rs2, .inl hfetch, hzero⟩⟩
  | rem rd rs1 rs2 =>
    obtain ⟨⟨-, hzero, hpolicy⟩, rfl⟩ := aluInto_eq_takeTrap_iff.mp h
    exact ⟨hpolicy, rfl, .inl ⟨rd, rs1, rs2, .inr hfetch, hzero⟩⟩
  | divi rd rs1 imm =>
    obtain ⟨⟨-, hzero, hpolicy⟩, rfl⟩ := aluInto_eq_takeTrap_iff.mp h
    obtain rfl := eq_zero_of_immediateOperand_eq_zero (immediateInRange_of_fetch hfetch) hzero
    exact ⟨hpolicy, rfl, .inr ⟨rd, rs1, .inl hfetch⟩⟩
  | remi rd rs1 imm =>
    obtain ⟨⟨-, hzero, hpolicy⟩, rfl⟩ := aluInto_eq_takeTrap_iff.mp h
    obtain rfl := eq_zero_of_immediateOperand_eq_zero (immediateInRange_of_fetch hfetch) hzero
    exact ⟨hpolicy, rfl, .inr ⟨rd, rs1, .inr hfetch⟩⟩
  | add | sub | and | or | xor | sll | srl | sra | slt | seq | sne | sge | mul =>
    simp only [exec_add, exec_sub, exec_and, exec_or, exec_xor, exec_sll, exec_srl, exec_sra, exec_slt, exec_seq,
      exec_sne, exec_sge, exec_mul, aluInto_eq_takeTrap_iff, reduceCtorEq, or_self, false_and] at h
  | addi | subi | andi | ori | xori | slli | srli | srai | slti | seqi | snei | sgei | muli =>
    simp only [exec_addi, exec_subi, exec_andi, exec_ori, exec_xori, exec_slli, exec_srli, exec_srai, exec_slti,
      exec_seqi, exec_snei, exec_sgei, exec_muli, aluInto_eq_takeTrap_iff, reduceCtorEq, or_self, false_and] at h
  | lui | ebreak | ewrite => exact absurd h (ne_takeTrap_of_pc rfl rfl e)
  | eread rd => exact absurd h (ne_takeTrap_of_pc (exec_eread rd s) (inRead_pc s.advance) e)
  | beq | bne | blt | bge => exact absurd h (branch_ne_takeTrap hhalted _ _ _ _ e)
  | jal rd off => exact absurd h (ne_takeTrap_of_halted (exec_jal rd off s) hhalted e)
  | jalr rd rs1 imm => exact absurd h (ne_takeTrap_of_halted (exec_jalr rd rs1 imm s) hhalted e)

/-- A fetched instruction that traps is a step that traps. -/
theorem hostStep_of_exec_takeTrap {s : State} {i : Instr} {e : Trap} (hhalted : s.halted = false)
    (hfetch : fetch s = .instr i) (h : exec i s = .next (s.takeTrap e)) :
    hostStep s = (s.takeTrap e, .trapped e.cause) := by
  obtain ⟨a, ha⟩ := exists_executes i s
  have hexec := ha.exec_eq s (.refl i s)
  have heq : a.apply s = s.takeTrap e := by simpa [hexec] using h
  rw [hostStep_of_executes hhalted hfetch ha]
  rcases eq_halt_or_trap_of_apply_halted hhalted (heq ▸ takeTrap_halted s e) with rfl | ⟨e', rfl⟩
  · exact absurd h (ne_takeTrap_of_pc hexec rfl e)
  · obtain rfl := takeTrap_inj.mp heq
    rfl

/-- A reason of the table makes the step take its trap. -/
theorem hostStep_of_trapReason {s : State} {c : TrapCause} {v : Word} (hhalted : s.halted = false)
    (h : TrapReason s c v) : hostStep s = (s.takeTrap ⟨c, v⟩, .trapped c) := by
  cases c with
  | fetchOutOfRange =>
    obtain ⟨hout, rfl⟩ := h
    exact hostStep_of_outOfRange hhalted (fetch_of_memWords_le hout)
  | loadOutOfRange =>
    obtain ⟨rd, rs1, imm, hfetch, rfl, hout⟩ := h
    exact hostStep_of_exec_takeTrap hhalted hfetch (execLw_eq_takeTrap_iff.mpr ⟨hout, rfl⟩)
  | storeOutOfRange =>
    obtain ⟨rs2, rs1, imm, hfetch, rfl, hout⟩ := h
    exact hostStep_of_exec_takeTrap hhalted hfetch (execSw_eq_takeTrap_iff.mpr ⟨hout, rfl⟩)
  | divideByZero =>
    obtain ⟨hpolicy, rfl, ⟨rd, rs1, rs2, hfetch | hfetch, hzero⟩ | ⟨rd, rs1, hfetch | hfetch⟩⟩ := h
    · exact hostStep_of_exec_takeTrap hhalted hfetch (aluInto_eq_takeTrap_iff.mpr ⟨⟨.inl rfl, hzero, hpolicy⟩, rfl⟩)
    · exact hostStep_of_exec_takeTrap hhalted hfetch (aluInto_eq_takeTrap_iff.mpr ⟨⟨.inr rfl, hzero, hpolicy⟩, rfl⟩)
    · exact hostStep_of_exec_takeTrap hhalted hfetch (aluInto_eq_takeTrap_iff.mpr ⟨⟨.inl rfl, rfl, hpolicy⟩, rfl⟩)
    · exact hostStep_of_exec_takeTrap hhalted hfetch (aluInto_eq_takeTrap_iff.mpr ⟨⟨.inr rfl, rfl, hpolicy⟩, rfl⟩)

/-- A step that takes a trap has a reason in the table: the fetch was out of range, or the instruction trapped. -/
theorem trapReason_of_hostStep {s : State} {c : TrapCause} {v : Word} (hhalted : s.halted = false)
    (h : hostStep s = (s.takeTrap ⟨c, v⟩, .trapped c)) : TrapReason s c v := by
  rcases fetch_cases s with ⟨hout, hfetch⟩ | ⟨-, why, -, hfetch⟩ | ⟨-, i, -, hfetch⟩
  · rw [hostStep_of_outOfRange hhalted hfetch, Prod.mk.injEq, takeTrap_inj, Trap.mk.injEq] at h
    obtain ⟨⟨rfl, rfl⟩, -⟩ := h
    exact ⟨hout, rfl⟩
  · rw [hostStep_of_invalid hhalted hfetch] at h
    exact nomatch congrArg Prod.snd h
  · have hexec : exec i s = .next (s.takeTrap ⟨c, v⟩) := by
      rw [← step_of_instr hhalted hfetch, step_eq_next_hostStep, h]
    exact trapReason_of_exec hhalted hfetch hexec

/-- Settles O40: the outcome and the record tell that the step takes that trap, which it does exactly for the reasons of
the table. -/
theorem trapsHappenExactlyForTheirReasons : Obligations.TrapsHappenExactlyForTheirReasons :=
  ⟨fun _ hhalted _ _ =>
    trapped_iff_hostStep_eq.trans ⟨trapReason_of_hostStep hhalted, hostStep_of_trapReason hhalted⟩,
    rfl, rfl, rfl, rfl⟩

/-! ### 60_exceptions.md R226: the halt request -/

/-- Settles O57: only `halted` differs, and a step of a halted machine changes nothing. -/
theorem haltRequestStopsTheNextStep : Obligations.HaltRequestStopsTheNextStep :=
  fun _ => ⟨rfl, fun _ => rfl, rfl, rfl, ⟨rfl, rfl⟩, rfl, hostStep_of_halted rfl⟩

end Sys2Proof.Machine

/-! ### 70_reset_and_hazards.md R240: reset -/

namespace Sys2Proof.Machine

@[simp] theorem readReg_hostReset (s : State) (r : Reg) : (hostReset s).readReg r = 0 := by
  by_cases h0 : r = 0
  · rw [h0, readReg_zero]
  · rw [State.readReg, if_neg h0]
    exact Vector.getElem_replicate r.isLt

/-- Settles O52: the registers are those of `readReg_hostReset`, every other field stands in the reset state. -/
theorem resetSetsEveryField : Obligations.ResetSetsEveryField :=
  fun s => ⟨readReg_hostReset s, rfl, rfl, rfl, rfl, rfl, rfl, fun _ => rfl, rfl, rfl, rfl⟩

/-! ### 70_reset_and_hazards.md R241: load -/

/-- The one spec of writing an image: the slots it covers hold its words, every other slot is as before. -/
theorem read_writeImage {m : Memory} (hm : m.wf = true) (a b : Nat) (ws : List Word) :
    (m.writeImage a ws).read b = if a ≤ b then ws[b - a]?.getD (m.read b) else m.read b := by
  induction ws generalizing m a with
  | nil => simp [Memory.writeImage]
  | cons w rest ih =>
    rw [Memory.writeImage, ih (wf_write hm a w), read_write hm]
    rcases Nat.lt_trichotomy b a with hbelow | rfl | habove
    · simp [show ¬ a ≤ b by omega, show ¬ a + 1 ≤ b by omega, show b ≠ a by omega]
    · simp
    · have hoffset : b - a = b - (a + 1) + 1 := by omega
      simp [show a ≤ b by omega, show a + 1 ≤ b by omega, show b ≠ a by omega, hoffset]

theorem load_of_ok {s : State} {source : String} {image : MachineImage}
    (h : assemble s.params.opcodeMap s.params.memWords source = .ok image) :
    load s source = ({ hostReset s with mem := Memory.writeImage [] 0 image.words }, []) := by
  simp only [load, h]

theorem load_of_error {s : State} {source : String} {errors : List AssemblyError}
    (h : assemble s.params.opcodeMap s.params.memWords source = .error errors) :
    load s source = (hostReset s, errors) := by
  simp only [load, h]

/-- Settles O53: the image is written over a memory that reads 0 everywhere. -/
theorem loadPlacesTheImage : Obligations.LoadPlacesTheImage := by
  intro s source image h
  rw [load_of_ok h]
  refine ⟨rfl, fun a => ?_, rfl, rfl, rfl⟩
  rw [read_writeImage rfl, if_pos (Nat.zero_le a)]
  exact List.getD_eq_getElem?_getD.symm

/-! ### 70_reset_and_hazards.md R242: the first step after a failed load -/

theorem decodeWith_error_of_opcode {map : OpcodeMap} {w : Word}
    (h : ∀ m, field w 0 7 ≠ (map.row m).opcode.toNat) : ∃ why, decodeWith map w = .error why := by
  rcases decodeWith_cases map w with ⟨m, hm, -⟩ | ⟨-, herr⟩
  · exact absurd (accepts_codes (accepts_of_classify hm)).1 (h m)
  · exact herr

/-- The word 0 is Invalid under a map that gives no row the opcode 0. -/
theorem decodeWith_zero_error {map : OpcodeMap} (h : ∀ m, (map.row m).opcode ≠ 0) :
    ∃ why, decodeWith map 0 = .error why :=
  decodeWith_error_of_opcode fun m hopcode => h m (BitVec.eq_of_toNat_eq hopcode.symm)

/-- After reset the fetch reads the word 0 at slot 0. -/
theorem memRead_hostReset {s : State} (hmem : 1 ≤ s.params.memWords) :
    (hostReset s).memRead (hostReset s).pc = some 0 :=
  memRead_of_lt hmem

/-- Settles O54: the machine is the reset one, whose first fetch finds the word 0, which is Invalid. -/
theorem failedLoadLeavesResetState : Obligations.FailedLoadLeavesResetState := by
  intro s source errors hmem h
  refine ⟨load_of_error h, fun hopcode => ?_⟩
  obtain ⟨why, hdecode⟩ := decodeWith_zero_error hopcode
  have hfetch : fetch (hostReset s) = .invalid why := fetch_of_error (memRead_hostReset hmem) hdecode
  exact ⟨_, hostStep_of_invalid rfl hfetch, rfl, rfl, rfl⟩

/-! ### 70_reset_and_hazards.md R240-R242, 60_exceptions.md R226: the invariant under the host's operations -/

theorem hostReset_inv (s : State) : (hostReset s).Inv := ⟨rfl, rfl, rfl, Nat.zero_le _, nofun⟩

/-- A loaded machine has the invariant because an image that assembles fits in memory. -/
theorem load_inv (s : State) (source : String) : (load s source).1.Inv := by
  cases h : assemble s.params.opcodeMap s.params.memWords source with
  | error errors => exact load_of_error h ▸ hostReset_inv s
  | ok image =>
    have hfits : image.words.length ≤ s.params.memWords := (assembledImageFitsMemory _ _ _).1 image h
    obtain ⟨-, -, hzero, hcursor, htrap⟩ := hostReset_inv s
    rw [load_of_ok h]
    exact ⟨wf_writeImage rfl 0 _, within_writeImage rfl ((Nat.zero_add _).trans_le hfits), hzero, hcursor, htrap⟩

theorem haltRequest_inv {s : State} (h : s.Inv) : (haltRequest s).Inv := by
  obtain ⟨hwf, hwithin, hzero, hcursor, htrap⟩ := h
  exact ⟨hwf, hwithin, hzero, hcursor, fun hsome => ⟨rfl, (htrap hsome).2⟩⟩

/-- Settles O56: each operation by its own lemma. -/
theorem hostOperationsEstablishInvariant : Obligations.HostOperationsEstablishInvariant :=
  fun s source => ⟨hostReset_inv s, load_inv s source, haltRequest_inv⟩

end Sys2Proof.Machine
